-- ==== Sys2Proof/Word.lean ====
section
/-! DEFINITION. The word types of HCC and the small fixed-size arrays of bytes its registers are made of. -/

namespace Sys2Proof

/-- `u8`, the unit of everything HCC stores (00_scope.md R10). -/
abbrev Byte := BitVec 8

/-- `u16`: LEN and the two halves of a header (00_scope.md R10). -/
abbrev Half := BitVec 16

/-- `u32`: the shuffle's packed word and the header word (00_scope.md R10). -/
abbrev Word := BitVec 32

/-- A host byte address, 17 bits (20_memory.md R46). -/
abbrev Addr := BitVec 17

/-- Four bytes in index order: SEND_IV, RECV_IV, HDR and the shuffle's `m` (10_state.md R17, R18, R22). -/
structure Quad where
  b0 : Byte
  b1 : Byte
  b2 : Byte
  b3 : Byte
deriving DecidableEq, Repr

/-- A 256-byte read-only memory as the spec prints it: entry `16*hi + lo` is row `hi`, column `lo`
(10_state.md R34, R35, R36). -/
abbrev Table := Vector (Vector Byte 16) 16

/-- The 16-byte AES block `b[0..16)` in index order (41_aes.md R81). -/
abbrev Block := Vector Byte 16

/-- The direction of an IV: send or receive (30_encoding.md R68). -/
inductive Dir where
  | send
  | recv
deriving DecidableEq, Repr

end Sys2Proof
end

