-- ==== Sys2Proof/Config.lean ====
section
/-! DEFINITION. What the build of a block fixes, and the values the spec leaves open. -/

namespace Sys2Proof

/-- CRYPTO_MODE (10_state.md R38): fixed when the block is built. -/
inductive CryptoMode where
  | crypto
  | null
deriving DecidableEq, Repr

/-- The parameters of a build (00_scope.md R9; 10_state.md R34-R38; 92_eei_decisions.md D11, D23): the mode and the
contents of the three read-only memories. State carries one, no step writes it, and every statement about the
machine holds for all of them. DESIGN CHOICE, log 1. -/
structure Build where
  cryptoMode   : CryptoMode
  sbox         : Table
  shuffleTable : Table
  keySchedule  : Table
deriving DecidableEq, Repr

/-- The value of the `k`-th unconstrained draw (10_state.md R20, R30; 93_implementation_defined.md U1, U2). It has
no body: no proof can know it. DESIGN CHOICE (the form of the draws), log 5. DESIGN CHOICE (one function for all blocks
and runs, so equal counts draw equal bytes), log 22. -/
opaque Config.freeByte : Nat → Byte

namespace Config

/-- SHUFFLE_SEED (00_scope.md R9; 43_shuffle.md R116). -/
def shuffleSeed : Quad := ⟨0xF2, 0x53, 0x50, 0xC6⟩

/-- MAPLE_VERSION = 83 (00_scope.md R9; 45_header.md R141). -/
def mapleVersion : Half := 83

/-- MAPLE_ITERATIONS (00_scope.md R9). -/
abbrev mapleIterations : Nat := 3

/-- FIRST_CHUNK = 0x5B0 (00_scope.md R9; 44_ofb.md R126). -/
abbrev firstChunk : Nat := 0x5B0

/-- NEXT_CHUNK = 0x5B4 (00_scope.md R9; 44_ofb.md R126). -/
abbrev nextChunk : Nat := 0x5B4

/-- HANDSHAKE_MIN (00_scope.md R9; 46_session.md R152). -/
abbrev handshakeMin : Nat := 15

/-- HS_SEND_OFFSET (00_scope.md R9; 46_session.md R153). -/
abbrev hsSendOffset : Nat := 7

/-- HS_RECV_OFFSET (00_scope.md R9; 46_session.md R153). -/
abbrev hsRecvOffset : Nat := 11

/-- DATA_BYTES (00_scope.md R9; 10_state.md R30). -/
abbrev dataBytes : Nat := 65536

end Config
end Sys2Proof
end

