-- ==== Sys2Proof/Syntax.lean ====
section
/-! DEFINITION. The commands of HCC (every row of spec/opcode_table.json), the accesses of its host port, and the
operations of a host script. -/

namespace Sys2Proof

/-- The twelve commands (30_encoding.md R67). A command has no operand fields: what it reads and writes is fixed by
its opcode (R66, R69). -/
inductive Instr where
  | init
  | enc
  | dec
  | mkhdr
  | chklen
  | aesblk
  | menc
  | mdec
  | shufS
  | shufR
  | ofbS
  | ofbR
deriving DecidableEq, Repr

/-- The two groups of opcodes (30_encoding.md R68). -/
inductive Group where
  | session
  | primitive
deriving DecidableEq, Repr

/-- The group of each command (30_encoding.md R68). -/
def Instr.group : Instr → Group
  | .init | .enc | .dec | .mkhdr | .chklen => .session
  | .aesblk | .menc | .mdec | .shufS | .shufR | .ofbS | .ofbR => .primitive

/-- One access of the host port: `MemRead(a, 1)` or `MemWrite(a, 1, v)` (20_memory.md R46). -/
inductive HostAccess where
  | read  (a : Addr)
  | write (a : Addr) (v : Byte)
deriving DecidableEq, Repr

/-- The access is a write: W of its listing word (30_encoding.md R75). -/
def HostAccess.isWrite : HostAccess → Bool
  | .read _    => false
  | .write _ _ => true

/-- What the outside world does to the block: an access of the host, or the reset input asserted
(70_reset_and_hazards.md R191). -/
inductive HostEvent where
  | access (x : HostAccess)
  | reset
deriving DecidableEq, Repr

/-- The operations of a host script (30_encoding.md R73, R74). Numbers are the script's own, so they may be out of
range: `HostOp.wellFormed` says which are not. -/
inductive HostOp where
  | wr       (a v : Nat)
  | rd       (a : Nat)
  | cmd      (i : Instr)
  | setlen   (n : Nat)
  | sethdr   (b0 b1 b2 b3 : Nat)
  | wrdata   (k : Nat) (bytes : List Nat)
  | filldata (k n b : Nat)
  | rddata   (k n : Nat)
  | rdstatus
  | rdiv     (d : Dir)
  | rdhdr
  | rdlen
deriving DecidableEq, Repr

/-- A line of a host script (30_encoding.md R73): its operation and, where an `rd` states one, the byte expected. -/
structure HostLine where
  op       : HostOp
  expected : Option Nat
deriving DecidableEq, Repr

end Sys2Proof
end

