-- ==== Sys2Proof/WellFormed.lean ====
section
/-! DEFINITION. Which terms of the syntax the spec admits: every command; host operations whose numbers fit; builds
whose tables have the shape the spec gives them. -/

namespace Sys2Proof

/-- Every command is well-formed: it has no field that could be out of range (30_encoding.md R66). -/
def Instr.wellFormed : Instr → Bool
  | .init | .enc | .dec | .mkhdr | .chklen | .aesblk | .menc | .mdec | .shufS | .shufR | .ofbS | .ofbR => true

/-- `a` is a 17-bit address (30_encoding.md R73). -/
def isAddr (a : Nat) : Bool := a < 2 ^ 17

/-- `v` is a byte (30_encoding.md R73). -/
def isByte (v : Nat) : Bool := v < 2 ^ 8

/-- `DATA[k .. k+n)` lies in the DATA window (30_encoding.md R74; 10_state.md R30). -/
def isDataRange (k n : Nat) : Bool := k + n ≤ Config.dataBytes

/-- The numbers of a host operation are a 17-bit address and bytes (30_encoding.md R73), a 16-bit length (R21), and a
range of DATA (R30). DESIGN CHOICE for the pseudo-operations, whose ranges R74 does not state, log 17. -/
def HostOp.wellFormed : HostOp → Bool
  | .wr a v              => isAddr a && isByte v
  | .rd a                => isAddr a
  | .cmd i               => i.wellFormed
  | .setlen n            => n < 2 ^ 16
  | .sethdr b0 b1 b2 b3  => isByte b0 && isByte b1 && isByte b2 && isByte b3
  | .wrdata k bytes      => isDataRange k bytes.length && bytes.all isByte
  | .filldata k n b      => isDataRange k n && isByte b
  | .rddata k n          => isDataRange k n
  | .rdstatus            => true
  | .rdiv _              => true
  | .rdhdr               => true
  | .rdlen               => true

/-- A line of a script is well-formed when its operation is and the byte it expects is a byte (30_encoding.md R73). -/
def HostLine.wellFormed (l : HostLine) : Bool := l.op.wellFormed && l.expected.all isByte

/-- The 256 bytes of a table, in index order. -/
def Table.bytes (t : Table) : List Byte := t.toList.flatMap (·.toList)

/-- T is a permutation of 0..255 (10_state.md R35) and KEY ends in 16 zero bytes (R36). No rule of the machine needs
either: they describe the tables a build is given. -/
def Build.wellFormed (b : Build) : Bool :=
  decide (b.shuffleTable.bytes.Nodup) && b.keySchedule[15].toList.all (· == 0)

end Sys2Proof
end

