-- ==== Sys2Proof/Decode.lean ====
section
/-! DEFINITION. The decoder of a command byte (30_encoding.md R67, R70, R71), the encoder, the decoder read off the
opcode's fields (R68), the listing word of a host access (R75) and the expansion of the host-script operations
(R74). -/

namespace Sys2Proof

/-- What a byte written to CMD is: a command or illegal (30_encoding.md R71). -/
inductive Decoded where
  | command (i : Instr)
  | illegal (op : Byte)
deriving DecidableEq, Repr

/-- The opcode map of 30_encoding.md R67, row by row. -/
def opcodeMap : List (Byte × Instr) :=
  [(0x01, .init), (0x02, .enc), (0x03, .dec), (0x04, .mkhdr), (0x05, .chklen), (0x10, .aesblk), (0x11, .menc),
   (0x12, .mdec), (0x14, .shufS), (0x15, .shufR), (0x16, .ofbS), (0x17, .ofbR)]

/-- The decoder, total on every byte (30_encoding.md R71): the command of R67, or illegal (R70). -/
def decode (op : Byte) : Decoded :=
  match opcodeMap.find? (fun row => row.1 == op) with
  | some row => .command row.2
  | none     => .illegal op

/-- OP(M), the opcode of a command (30_encoding.md R67, column OP). -/
def encode : Instr → Byte
  | .init   => 0x01
  | .enc    => 0x02
  | .dec    => 0x03
  | .mkhdr  => 0x04
  | .chklen => 0x05
  | .aesblk => 0x10
  | .menc   => 0x11
  | .mdec   => 0x12
  | .shufS  => 0x14
  | .shufR  => 0x15
  | .ofbS   => 0x16
  | .ofbR   => 0x17

/-- The mnemonic of a command (30_encoding.md R67, column mnemonic). -/
def Instr.mnemonic : Instr → String
  | .init   => "INIT"
  | .enc    => "ENC"
  | .dec    => "DEC"
  | .mkhdr  => "MKHDR"
  | .chklen => "CHKLEN"
  | .aesblk => "AESBLK"
  | .menc   => "MENC"
  | .mdec   => "MDEC"
  | .shufS  => "SHUF.S"
  | .shufR  => "SHUF.R"
  | .ofbS   => "OFB.S"
  | .ofbR   => "OFB.R"

/-- OP[7:4] of a group (30_encoding.md R68). -/
def Group.nibble : Group → BitVec 4
  | .session   => 0
  | .primitive => 1

/-- The primitive command an OP[0] / OP[1] pair of 0x14..0x17 selects (30_encoding.md R68): OP[1] the operation, OP[0]
the IV. -/
def ivCommand (isOfb isRecv : Bool) : Instr :=
  match isOfb, isRecv with
  | false, false => .shufS
  | false, true  => .shufR
  | true,  false => .ofbS
  | true,  true  => .ofbR

/-- The other decoder 30_encoding.md R68 allows, read from the fields OP[7:4], OP[3:2], OP[1] and OP[0]. -/
def decodeByFields (op : Byte) : Decoded :=
  match op.extractLsb' 4 4 == Group.session.nibble, op.extractLsb' 4 4 == Group.primitive.nibble with
  | true, _ =>
    match (op.extractLsb' 0 4).toNat with
    | 1 => .command .init
    | 2 => .command .enc
    | 3 => .command .dec
    | 4 => .command .mkhdr
    | 5 => .command .chklen
    | _ => .illegal op
  | _, true =>
    match (op.extractLsb' 2 2).toNat, (op.extractLsb' 0 2).toNat with
    | 0, 0 => .command .aesblk
    | 0, 1 => .command .menc
    | 0, 2 => .command .mdec
    | 1, _ => .command (ivCommand (op.getLsbD 1) (op.getLsbD 0))
    | _, _ => .illegal op
  | _, _ => .illegal op

/-- The instruction the decoder reads from a row of the opcode table whose `nbits` bits are `w`. Every command is one
byte (30_encoding.md R66, R72), so nothing is read from another number of bits. DESIGN CHOICE, log 14. -/
def decodeTableWord (nbits w : Nat) : Option Instr :=
  if nbits = 8 ∧ w < 256 then
    match decode (BitVec.ofNat 8 w) with
    | .command i => some i
    | .illegal _ => none
  else none

/-- The 26-bit listing word `T = W ++ A ++ V` of a host access (30_encoding.md R75). -/
def HostAccess.encode : HostAccess → BitVec 26
  | .read a    => 0#1 ++ a ++ 0#8
  | .write a v => 1#1 ++ a ++ v

/-- The access a listing word stands for (30_encoding.md R75): T[25] the direction, T[24:8] the address, T[7:0] the
data, which is 0 for a read. A read word with other data bits stands for no access. DESIGN CHOICE, log 18. -/
def decodeAccess (t : BitVec 26) : Option HostAccess :=
  if t.getLsbD 25 then some (.write (t.extractLsb' 8 17) (t.extractLsb' 0 8))
  else if t.extractLsb' 0 8 = 0 then some (.read (t.extractLsb' 8 17))
  else none

/-- `wr A, V` (30_encoding.md R73). -/
def wrAt (a v : Nat) : HostAccess := .write (BitVec.ofNat 17 a) (BitVec.ofNat 8 v)

/-- `rd A` (30_encoding.md R73). -/
def rdAt (a : Nat) : HostAccess := .read (BitVec.ofNat 17 a)

/-- `wr a, b0`, `wr a+1, b1`, … in increasing address. -/
def wrRun (a : Nat) : List Nat → List HostAccess
  | []      => []
  | b :: bs => wrAt a b :: wrRun (a + 1) bs

/-- `rd a`, `rd a+1`, … for `n` addresses. -/
def rdRun (a n : Nat) : List HostAccess := (List.range n).map fun i => rdAt (a + i)

/-- The expansions of 30_encoding.md R74, and the two primitive operations of R73. -/
def HostOp.expand : HostOp → List HostAccess
  | .wr a v             => [wrAt a v]
  | .rd a               => [rdAt a]
  | .cmd i              => [wrAt 0x00000 (Sys2Proof.encode i).toNat]
  | .setlen n           => [wrAt 0x00002 (n &&& 0xFF), wrAt 0x00003 ((n >>> 8) &&& 0xFF)]
  | .sethdr b0 b1 b2 b3 => wrRun 0x00004 [b0, b1, b2, b3]
  | .wrdata k bytes     => wrRun (0x10000 + k) bytes
  | .filldata k n b     => wrRun (0x10000 + k) (List.replicate n b)
  | .rddata k n         => rdRun (0x10000 + k) n
  | .rdstatus           => [rdAt 0x00001]
  | .rdiv .send         => rdRun 0x00008 4
  | .rdiv .recv         => rdRun 0x0000C 4
  | .rdhdr              => rdRun 0x00004 4
  | .rdlen              => [rdAt 0x00002, rdAt 0x00003]

end Sys2Proof
end

