-- ==== Sys2Proof/Machine/State.lean ====
section
/-! DEFINITION. The state of HCC (10_state.md R16) as plain data, its reset, and the reasons a step can stop. -/

namespace Sys2Proof.Machine

/-- The bytes of DATA that hold a value, as (index, byte) pairs (10_state.md R30): the pair `(i, v)` says DATA[i] = v,
at host address 0x10000 + i. A byte that is not listed holds no value. DESIGN CHOICE (the index as key), log 16. -/
abbrev Memory := List Host.Cell

/-- The canonical form of DATA: indices strictly rising, each below 65536. (An unlisted byte holds no value at all, so
no listed value can equal what it reads as.) -/
def Memory.wf : Memory → Bool
  | []              => true
  | [(k, _)]        => k < Config.dataBytes
  | (k, _) :: (k', v') :: m => k < k' && Memory.wf ((k', v') :: m)

/-- The stored bits of STATUS (10_state.md R23). CRYPTO and BUSY are hard-wired (R25, R26, R31), so they are not
stored: `statusByte` of Flags.lean puts the byte together. DEDUCED, log 15. -/
structure Status where
  init    : Bool
  errSeen : Bool
  err     : BitVec 4
deriving DecidableEq, Repr

/-- The state of the machine. The first eight fields are the spec's (10_state.md R16, R38); CMD holds nothing (R29) and
has no field. The last three are the model's own: the count of free values drawn (log 5, log 6), the host events still
to come (log 7) and the bytes the host's reads have returned (log 8). -/
structure State where
  build   : Build
  status  : Status
  len     : Half
  hdr     : Quad
  sendIv  : Quad
  recvIv  : Quad
  data    : Memory
  draws   : Nat
  pending : List HostEvent
  results : List Byte
deriving DecidableEq, Repr

/-- Why the machine would stop with a fault. The spec gives no event that stops HCC: every error is a report in STATUS
after which the host goes on (60_exceptions.md R166, R171, R176), and every 17-bit address exists (20_memory.md R56).
So there is no constructor: nobody raises a fault, and a step cannot fault. DEDUCED, log 13. -/
inductive Fault where
deriving DecidableEq, Repr

/-- Why an instruction would have no meaning. -/
inductive Refusal where
  /-- Raised by an arm of `exec` whose instruction has no meaning yet; no arm does so. Safe. -/
  | notModelled (mnemonic : String)
deriving DecidableEq, Repr

/-- The outcome of a command or a step. -/
abbrev Outcome := Host.Outcome State Fault Refusal

/-- The value of both IV fields after reset. The spec gives them none (10_state.md R17, R18, R20), and no access can
observe them while STATUS.INIT = 0. DESIGN CHOICE, log 3. -/
def resetIv : Quad := ⟨0x00, 0x00, 0x00, 0x00⟩

/-- A block of the given build right after reset (10_state.md R16; 70_reset_and_hazards.md R191), with no host event to
come (R193). -/
def State.resetOf (b : Build) : State where
  build   := b
  status  := ⟨false, false, 0⟩
  len     := 0x0000
  hdr     := ⟨0x00, 0x00, 0x00, 0x00⟩
  sendIv  := resetIv
  recvIv  := resetIv
  data    := []
  draws   := 0
  pending := []
  results := []

/-- The machine right after reset, in the default build (00_scope.md R9). -/
def State.reset : State := State.resetOf defaultBuild

end Sys2Proof.Machine
end

