-- ==== Sys2Proof/Machine/Flags.lean ====
section
/-! DEFINITION. STATUS: the error codes, the byte the host reads, and the two ways a command leaves it
(10_state.md R23-R28, R33; 60_exceptions.md R167, R170, R171). -/

namespace Sys2Proof.Machine

/-- The three errors (60_exceptions.md R167). -/
inductive ErrorName where
  | illegal
  | notInit
  | shortHs
deriving DecidableEq, Repr

/-- E_ILLEGAL = 1, E_NOT_INIT = 2, E_SHORT_HS = 3 (60_exceptions.md R167). -/
def ErrorName.code : ErrorName → BitVec 4
  | .illegal => 1
  | .notInit => 2
  | .shortHs => 3

/-- STATUS.CRYPTO (10_state.md R25): hard-wired to the build's mode. -/
def State.cryptoBit (s : State) : Bool := s.build.cryptoMode == .crypto

/-- STATUS as the host reads it (10_state.md R23): bits 7:4 ERR, 3 ERRSEEN, 2 BUSY (always 0, R26), 1 CRYPTO, 0 INIT. -/
def State.statusByte (s : State) : Byte :=
  s.status.err ++ BitVec.ofBool s.status.errSeen ++ 0#1 ++ BitVec.ofBool s.cryptoBit ++ BitVec.ofBool s.status.init

/-- STATUS after a command that succeeded (60_exceptions.md R170): ERR is 0, ERRSEEN and INIT are unchanged. -/
def Status.succeeded (st : Status) : Status := { st with err := 0 }

/-- STATUS after a command that raised an error (60_exceptions.md R171). -/
def Status.failed (e : ErrorName) (st : Status) : Status := { st with err := e.code, errSeen := true }

/-- STATUS.INIT <- 1 (46_session.md R152; 10_state.md R24). -/
def Status.loaded (st : Status) : Status := { st with init := true }

end Sys2Proof.Machine
end

