-- ==== Sys2Proof/Machine/Ops.lean ====
section
/-! DEFINITION. The named operations every command is written with: DATA, the read-only memories, the free values, the
IVs, raising an error, ending a command, and reset. -/

namespace Sys2Proof

/-! ### The read-only memories (10_state.md R34-R37) -/

/-- Entry `x` of a 256-byte table (10_state.md R34: entry `16*hi + lo` is row `hi`, column `lo`). -/
def Table.byteAt (t : Table) (x : Byte) : Byte :=
  (t.get ⟨x.toNat / 16, by omega⟩).get ⟨x.toNat % 16, by omega⟩

/-- Round key `r`, KEY[16*r .. 16*r+15] (10_state.md R36). -/
def roundKey (b : Build) (r : Fin 16) : Vector Byte 16 := b.keySchedule.get r

/-! ### Four-byte registers -/

/-- Element `i` of a four-byte register (10_state.md R17, R18, R22). -/
def Quad.get (q : Quad) : Fin 4 → Byte
  | 0 => q.b0
  | 1 => q.b1
  | 2 => q.b2
  | 3 => q.b3

/-- Element `i` of a four-byte register replaced. -/
def Quad.set (q : Quad) (v : Byte) : Fin 4 → Quad
  | 0 => { q with b0 := v }
  | 1 => { q with b1 := v }
  | 2 => { q with b2 := v }
  | 3 => { q with b3 := v }

/-- The four bytes at the head of a list; a list this is given has at least four. -/
def Quad.ofBytes (bs : List Byte) : Quad := ⟨bs.getD 0 0, bs.getD 1 0, bs.getD 2 0, bs.getD 3 0⟩

/-- A four-byte register packed little-endian into 32 bits (20_memory.md R53 (1), (3)). -/
def Quad.packLE (q : Quad) : Word :=
  q.b0.setWidth 32 ||| q.b1.setWidth 32 <<< 8 ||| q.b2.setWidth 32 <<< 16 ||| q.b3.setWidth 32 <<< 24

/-- A 32-bit word unpacked little-endian into four bytes (20_memory.md R53 (1)). -/
def Quad.unpackLE (w : Word) : Quad :=
  ⟨w.extractLsb' 0 8, w.extractLsb' 8 8, w.extractLsb' 16 8, w.extractLsb' 24 8⟩

/-- The low byte of a 16-bit value (20_memory.md R52). -/
def loByte (h : Half) : Byte := h.extractLsb' 0 8

/-- The high byte of a 16-bit value (20_memory.md R52). -/
def hiByte (h : Half) : Byte := h.extractLsb' 8 8

end Sys2Proof

namespace Sys2Proof.Machine

/-! ### DATA (10_state.md R30) -/

/-- The value DATA[a] holds, if it holds one. -/
def Memory.lookup : Memory → Nat → Option Byte
  | [], _          => none
  | (k, v) :: m, a => if k = a then some v else Memory.lookup m a

/-- The pairs that put `bytes` at `a`, `a + 1`, …. -/
def Memory.cells (a : Nat) : List Byte → Memory
  | []      => []
  | b :: bs => (a, b) :: Memory.cells (a + 1) bs

/-- `DATA[a .. a+n) <- bytes` (00_scope.md R12, R13), in place: what lay below and above the range stays. -/
def Memory.writeRange (m : Memory) (a : Nat) (bytes : List Byte) : Memory :=
  m.filter (fun c => c.1 < a) ++ (Memory.cells a bytes ++ m.filter (fun c => a + bytes.length ≤ c.1))

/-- Read `n` bytes of DATA from index `a` up, one after another; `d` free values have been drawn before. A byte that
holds no value is drawn afresh at the read (10_state.md R30; 93_implementation_defined.md U1). Answers the bytes and the
new count of draws. DESIGN CHOICE (the draws go in rising index order), log 11. -/
def Memory.readRange (m : Memory) (a : Nat) : (n : Nat) → (d : Nat) → List Byte × Nat
  | 0, d     => ([], d)
  | n + 1, d =>
    match m.lookup a with
    | some v => let r := Memory.readRange m (a + 1) n d; (v :: r.1, r.2)
    | none   => let r := Memory.readRange m (a + 1) n (d + 1); (Config.freeByte d :: r.1, r.2)

/-- Read `DATA[a .. a+n)`: the bytes, and the state with the draws the read took counted. -/
def readData (a n : Nat) (s : State) : List Byte × State :=
  let r := s.data.readRange a n s.draws
  (r.1, { s with draws := r.2 })

/-- `DATA[a .. a+n) <- bytes`. -/
def writeData (a : Nat) (bytes : List Byte) (s : State) : State :=
  { s with data := s.data.writeRange a bytes }

/-- "`f` applied to DATA[a .. a+n) in place" (00_scope.md R13): reads those bytes, computes as many new ones and writes
them back to the same indices. -/
def mapData (a n : Nat) (f : List Byte → List Byte) (s : State) : State :=
  let r := readData a n s
  writeData a (f r.1) r.2

/-- One unconstrained draw (93_implementation_defined.md U1, U2). Two states with equal counts draw the same byte, where
the spec relates no two draws. DESIGN CHOICE, log 22. -/
def drawByte (s : State) : Byte × State :=
  (Config.freeByte s.draws, { s with draws := s.draws + 1 })

/-! ### The IVs -/

/-- The IV of a direction: SEND_IV or RECV_IV (30_encoding.md R68). -/
def State.iv (s : State) : Dir → Quad
  | .send => s.sendIv
  | .recv => s.recvIv

/-- `SEND_IV <- q` or `RECV_IV <- q`. -/
def State.setIv (s : State) (q : Quad) : Dir → State
  | .send => { s with sendIv := q }
  | .recv => { s with recvIv := q }

/-! ### How a command ends -/

/-- `raise E(code)` (60_exceptions.md R171, R176): STATUS.ERR <- code and STATUS.ERRSEEN <- 1, and nothing else. It saves
no state and transfers no control, and there is no return from it (R177): the host's next access goes on. -/
def raise (e : ErrorName) (s : State) : State := { s with status := s.status.failed e }

/-- The end of a command that succeeded: STATUS.ERR <- 0 (60_exceptions.md R170). -/
def succeed (s : State) : State := { s with status := s.status.succeeded }

/-- The check of the commands that read an IV (60_exceptions.md R168): E_NOT_INIT, before anything is written, while
STATUS.INIT = 0; otherwise the command's effect, which then ends in success. -/
def requireInit (effect : State → State) (s : State) : Outcome :=
  if s.status.init then .next (succeed (effect s)) else .next (raise .notInit s)

/-! ### Reset (70_reset_and_hazards.md R191) -/

/-- The reset input: every register at its reset value, the IVs and DATA without a value, the tables and the mode
unchanged. What is the host's (the events to come, the bytes it has read) and the count of draws are no part of the
block and stay. DEDUCED (the reset lands between accesses), log 9. -/
def applyReset (s : State) : State :=
  { State.resetOf s.build with draws := s.draws, pending := s.pending, results := s.results }

end Sys2Proof.Machine
end

