-- ==== Sys2Proof/Machine/Operands.lean ====
section
/-! DEFINITION. The implicit operands of the commands (30_encoding.md R66, R67, R69): the payload DATA[0..LEN), the AES
block DATA[0..16) and the handshake bytes DATA[7..15). -/

namespace Sys2Proof

/-- The 16 bytes of an AES block from a list of 16. -/
def Block.ofBytes (bs : List Byte) : Block :=
  #v[bs.getD 0 0, bs.getD 1 0, bs.getD 2 0, bs.getD 3 0, bs.getD 4 0, bs.getD 5 0, bs.getD 6 0, bs.getD 7 0,
     bs.getD 8 0, bs.getD 9 0, bs.getD 10 0, bs.getD 11 0, bs.getD 12 0, bs.getD 13 0, bs.getD 14 0, bs.getD 15 0]

end Sys2Proof

namespace Sys2Proof.Machine

/-- `n = zext(LEN)` (30_encoding.md R69). -/
def State.payloadLen (s : State) : Nat := s.len.toNat

/-- The bytes of DATA[0..LEN) as a command that starts now would read them. -/
def State.payload (s : State) : List Byte := (readData 0 s.payloadLen s).1

/-- `f` applied to the payload DATA[0..LEN) in place (20_memory.md R55). -/
def mapPayload (f : List Byte → List Byte) (s : State) : State := mapData 0 s.payloadLen f s

/-- `f` applied to the block DATA[0..16) in place; LEN plays no part (41_aes.md R88). -/
def mapBlock (f : Block → Block) (s : State) : State :=
  mapData 0 16 (fun bs => (f (Block.ofBytes bs)).toList) s

/-- Read the handshake's two IVs (46_session.md R153): the send IV from DATA[7..11), the receive IV from
DATA[11..15). -/
def readHandshake (s : State) : Quad × Quad × State :=
  let snd := readData Config.hsSendOffset 4 s
  let rcv := readData Config.hsRecvOffset 4 snd.2
  (Quad.ofBytes snd.1, Quad.ofBytes rcv.1, rcv.2)

end Sys2Proof.Machine
end

