-- ==== Sys2Proof/Machine/Header.lean ====
section
/-! DEFINITION. The frame header codec (45_header.md R141, R142, R144, R146, R149) and the MKHDR and CHKLEN commands
(R143, R145). -/

namespace Sys2Proof.Machine

/-- The version term `a` (45_header.md R141): SEND_IV[3] is the high byte, SEND_IV[2] the low byte. -/
def versionTerm (sendIv : Quad) : Half :=
  (sendIv.b3.setWidth 16 <<< 8 ||| sendIv.b2.setWidth 16) ^^^ Config.mapleVersion

/-- `create_header(n)` (45_header.md R142). -/
def createHeader (sendIv : Quad) (n : Half) : Quad :=
  let a := versionTerm sendIv
  let b := a ^^^ n
  ⟨loByte a, hiByte a, loByte b, hiByte b⟩

/-- The null-mode header (45_header.md R146): the length as a little-endian u32. -/
def nullHeader (n : Half) : Quad := ⟨loByte n, hiByte n, 0x00, 0x00⟩

/-- `check_length(HDR)` (45_header.md R144). -/
def checkLength (hdr : Quad) : Half :=
  let w := hdr.packLE
  ((w >>> 16) ^^^ (w &&& 0xFFFF)).setWidth 16

/-- MKHDR (45_header.md R143). -/
def execMkhdr (s : State) : Outcome :=
  match s.build.cryptoMode with
  | .crypto => requireInit (fun s => { s with hdr := createHeader s.sendIv s.len }) s
  | .null   => .next (succeed { s with hdr := nullHeader s.len })

/-- CHKLEN (45_header.md R145). -/
def execChklen (s : State) : Outcome := .next (succeed { s with len := checkLength s.hdr })

end Sys2Proof.Machine
end

