-- ==== Sys2Proof/Machine/Maple.lean ====
section
/-! DEFINITION. Maple whitening and its inverse (42_maple.md R101-R108, R112) and the MENC and MDEC commands (R109,
R110). A pass walks its bytes with two running values, `remember` and the 8-bit counter `datalen` (R103). -/

namespace Sys2Proof.Machine

/-- 8-bit left rotation by `c mod 8` places (42_maple.md R101). -/
def rol8 (b : Byte) (c : Nat) : Byte :=
  let k := c % 8
  if k = 0 then b else (b <<< k) ||| (b >>> (8 - k))

/-- 8-bit right rotation by `c mod 8` places (42_maple.md R102). -/
def ror8 (b : Byte) (c : Nat) : Byte :=
  let k := c % 8
  if k = 0 then b else (b >>> k) ||| (b <<< (8 - k))

/-- `datalen` at the start of a pass over `n` bytes: `n & 0xFF` (42_maple.md R103). -/
def passStart (n : Nat) : Byte := BitVec.ofNat 8 n

/-- The loop of the forward pass (42_maple.md R105), over the bytes in the order it meets them. -/
def forwardLoop (remember datalen : Byte) : List Byte → List Byte
  | []      => []
  | b :: bs =>
    let cur := (rol8 b 3 + datalen) ^^^ remember
    (~~~(ror8 cur datalen.toNat) + 0x48) :: forwardLoop cur (datalen - 1) bs

/-- The forward pass of `maple_encrypt` (42_maple.md R105): i from 0 to n-1. -/
def forwardPass (bs : List Byte) : List Byte := forwardLoop 0 (passStart bs.length) bs

/-- The loop of the reverse pass (42_maple.md R106), over the bytes in the order it meets them. -/
def reverseLoop (remember datalen : Byte) : List Byte → List Byte
  | []      => []
  | b :: bs =>
    let cur := (rol8 b 4 + datalen) ^^^ remember
    ror8 (cur ^^^ 0x13) 3 :: reverseLoop cur (datalen - 1) bs

/-- The reverse pass of `maple_encrypt` (42_maple.md R106): i from n-1 down to 0. -/
def reversePass (bs : List Byte) : List Byte := (reverseLoop 0 (passStart bs.length) bs.reverse).reverse

/-- The loop that undoes the reverse pass (42_maple.md R107). -/
def unreverseLoop (remember datalen : Byte) : List Byte → List Byte
  | []      => []
  | b :: bs =>
    let c := rol8 b 3 ^^^ 0x13
    ror8 ((c ^^^ remember) - datalen) 4 :: unreverseLoop c (datalen - 1) bs

/-- `unreverse_pass` (42_maple.md R107): i from n-1 down to 0, as the pass it undoes (90_conflicts.md C8). -/
def unreversePass (bs : List Byte) : List Byte := (unreverseLoop 0 (passStart bs.length) bs.reverse).reverse

/-- The loop that undoes the forward pass (42_maple.md R108). -/
def unforwardLoop (remember datalen : Byte) : List Byte → List Byte
  | []      => []
  | b :: bs =>
    let c := rol8 (~~~(b - 0x48)) datalen.toNat
    ror8 ((c ^^^ remember) - datalen) 3 :: unforwardLoop c (datalen - 1) bs

/-- `unforward_pass` (42_maple.md R108): i from 0 to n-1. -/
def unforwardPass (bs : List Byte) : List Byte := unforwardLoop 0 (passStart bs.length) bs

/-- `f` done `k` times over. -/
def repeatPass (f : List Byte → List Byte) : Nat → List Byte → List Byte
  | 0, bs     => bs
  | k + 1, bs => repeatPass f k (f bs)

/-- `maple_encrypt` (42_maple.md R104): three times forward then reverse. -/
def mapleEncrypt (bs : List Byte) : List Byte :=
  repeatPass (fun x => reversePass (forwardPass x)) Config.mapleIterations bs

/-- `maple_decrypt` (42_maple.md R107): three times the undoing of the reverse pass, then of the forward pass. -/
def mapleDecrypt (bs : List Byte) : List Byte :=
  repeatPass (fun x => unforwardPass (unreversePass x)) Config.mapleIterations bs

/-- MENC (42_maple.md R109): `maple_encrypt` of DATA[0..LEN), in both modes and whatever STATUS.INIT is. -/
def execMenc (s : State) : Outcome := .next (succeed (mapPayload mapleEncrypt s))

/-- MDEC (42_maple.md R110): `maple_decrypt` of DATA[0..LEN), in both modes and whatever STATUS.INIT is. -/
def execMdec (s : State) : Outcome := .next (succeed (mapPayload mapleDecrypt s))

end Sys2Proof.Machine
end

