-- ==== Sys2Proof/Machine/Aes.lean ====
section
/-! DEFINITION. The AES-256 block encryptor (41_aes.md R81-R87, R89) and the AESBLK command (R88). -/

namespace Sys2Proof.Machine

/-- The block whose byte `i` is `f i`. -/
def Block.tabulate (f : Fin 16 → Byte) : Block :=
  #v[f 0, f 1, f 2, f 3, f 4, f 5, f 6, f 7, f 8, f 9, f 10, f 11, f 12, f 13, f 14, f 15]

/-- `sub_bytes` (41_aes.md R83): every byte through SBOX. -/
def subBytes (bld : Build) (b : Block) : Block := Block.tabulate fun i => bld.sbox.byteAt (b.get i)

/-- `shift_rows` (41_aes.md R84): row r rotates left by r, row 3 by 3 (90_conflicts.md C2). -/
def shiftRows (o : Block) : Block :=
  #v[o[0],  o[5],  o[10], o[15],
     o[4],  o[9],  o[14], o[3],
     o[8],  o[13], o[2],  o[7],
     o[12], o[1],  o[6],  o[11]]

/-- `gmul`, doubling in GF(2^8) (41_aes.md R85). -/
def gmul (x : Byte) : Byte := (x <<< 1) ^^^ (if x.getLsbD 7 then 0x1B else 0x00)

/-- One output byte of `mix_columns` (41_aes.md R86), from the column's old bytes, its own first and the others in
rising order around the column. -/
def mixByte (a0 a1 a2 a3 : Byte) : Byte := gmul a0 ^^^ a3 ^^^ a2 ^^^ gmul a1 ^^^ a1

/-- `mix_columns` (41_aes.md R86), all four outputs of a column from its old bytes. -/
def mixColumns (b : Block) : Block :=
  #v[mixByte b[0] b[1] b[2] b[3],     mixByte b[1] b[2] b[3] b[0],
     mixByte b[2] b[3] b[0] b[1],     mixByte b[3] b[0] b[1] b[2],
     mixByte b[4] b[5] b[6] b[7],     mixByte b[5] b[6] b[7] b[4],
     mixByte b[6] b[7] b[4] b[5],     mixByte b[7] b[4] b[5] b[6],
     mixByte b[8] b[9] b[10] b[11],   mixByte b[9] b[10] b[11] b[8],
     mixByte b[10] b[11] b[8] b[9],   mixByte b[11] b[8] b[9] b[10],
     mixByte b[12] b[13] b[14] b[15], mixByte b[13] b[14] b[15] b[12],
     mixByte b[14] b[15] b[12] b[13], mixByte b[15] b[12] b[13] b[14]]

/-- `add_round_key(b, r)` (41_aes.md R87). -/
def addRoundKey (bld : Build) (r : Fin 16) (b : Block) : Block :=
  Block.tabulate fun i => b.get i ^^^ (roundKey bld r).get i

/-- One full round, `r` in 1..13 (41_aes.md R82). -/
def aesRound (bld : Build) (b : Block) (r : Fin 16) : Block :=
  addRoundKey bld r (mixColumns (shiftRows (subBytes bld b)))

/-- The final round, without `mix_columns` (41_aes.md R82). -/
def aesFinalRound (bld : Build) (b : Block) : Block :=
  addRoundKey bld 14 (shiftRows (subBytes bld b))

/-- The round numbers of the 13 full rounds, in order (41_aes.md R82). -/
def fullRounds : List (Fin 16) := [1, 2, 3, 4, 5, 6, 7, 8, 9, 10, 11, 12, 13]

/-- `aes_encrypt` (41_aes.md R82). -/
def aesEncrypt (bld : Build) (b : Block) : Block :=
  aesFinalRound bld (fullRounds.foldl (aesRound bld) (addRoundKey bld 0 b))

/-- AESBLK (41_aes.md R88): one block encryption of DATA[0..16), whatever LEN, the mode and STATUS.INIT are. -/
def execAesblk (s : State) : Outcome := .next (succeed (mapBlock (aesEncrypt s.build) s))

end Sys2Proof.Machine
end

