-- ==== Sys2Proof/Machine/Shuffle.lean ====
section
/-! DEFINITION. The IV shuffle (43_shuffle.md R116-R119, R122) and the SHUF.S and SHUF.R commands (R120, R121). -/

namespace Sys2Proof.Machine

/-- 32-bit left rotation, for 0 < c < 32 (00_scope.md R11). -/
def rol32 (w : Word) (c : Nat) : Word := (w <<< c) ||| (w >>> (32 - c))

/-- `step_arith(m, v)` (43_shuffle.md R117): four updates one after another, each seeing those before it. The second is
R119's `m[1] - (m[2] ^ T[v])`. -/
def stepArith (bld : Build) (m : Quad) (v : Byte) : Quad :=
  let m0 := m.b0 + bld.shuffleTable.byteAt m.b1 - v
  let m1 := m.b1 - (m.b2 ^^^ bld.shuffleTable.byteAt v)
  let m2 := m.b2 ^^^ (bld.shuffleTable.byteAt m.b3 + v)
  let m3 := m.b3 + bld.shuffleTable.byteAt v - m0
  ⟨m0, m1, m2, m3⟩

/-- `step_rotate(m)` (43_shuffle.md R118; SHUFFLE_ROTATE = 3). -/
def stepRotate (m : Quad) : Quad := Quad.unpackLE (rol32 m.packLE 3)

/-- One step of the shuffle for the old IV byte `v` (43_shuffle.md R116). -/
def shuffleStep (bld : Build) (m : Quad) (v : Byte) : Quad := stepRotate (stepArith bld m v)

/-- `shuffle(iv)` (43_shuffle.md R116): from the seed, one step for each of the four old IV bytes in index order. -/
def shuffle (bld : Build) (iv : Quad) : Quad :=
  shuffleStep bld (shuffleStep bld (shuffleStep bld (shuffleStep bld Config.shuffleSeed iv.b0) iv.b1) iv.b2) iv.b3

/-- The IV of a direction replaced by its shuffle. -/
def shuffleIv (d : Dir) (s : State) : State := s.setIv (shuffle s.build (s.iv d)) d

/-- SHUF.S (43_shuffle.md R120). -/
def execShufS (s : State) : Outcome := requireInit (shuffleIv .send) s

/-- SHUF.R (43_shuffle.md R121). -/
def execShufR (s : State) : Outcome := requireInit (shuffleIv .recv) s

end Sys2Proof.Machine
end

