-- ==== Sys2Proof/Machine/Ofb.lean ====
section
/-! DEFINITION. The OFB stream multiplexer (44_ofb.md R126, R127, R132) with the count of its AES encryptions (R129,
70_reset_and_hazards.md R201), the OFB.S and OFB.R commands (R130, R131), and what the spec derives of the loop: the
keystream in closed form (R128) and the formula of the count (R129). -/

namespace Sys2Proof.Machine

/-- The tiled IV: `m_iv[i] = iv[i mod 4]` (44_ofb.md R126). -/
def tile (iv : Quad) : Block :=
  #v[iv.b0, iv.b1, iv.b2, iv.b3, iv.b0, iv.b1, iv.b2, iv.b3, iv.b0, iv.b1, iv.b2, iv.b3, iv.b0, iv.b1, iv.b2, iv.b3]

/-- One AES encryption in the loop: the block `m_iv` encrypted in place, and the count of encryptions made so far one
higher. The count is for information only (70_reset_and_hazards.md R201). -/
def encryptCounted (bld : Build) (m : Block × Nat) : Block × Nat := (aesEncrypt bld m.1, m.2 + 1)

/-- The inner loop of 44_ofb.md R126 over the bytes of one chunk from position `x` on: `m_iv` is encrypted at every
16th position and its bytes are XORed in. Answers the bytes, and `m_iv` with the count as the loop leaves them. -/
def ofbChunk (bld : Build) (m : Block × Nat) (x : Nat) : List Byte → List Byte × (Block × Nat)
  | []      => ([], m)
  | b :: bs =>
    let m := if x % 16 = 0 then encryptCounted bld m else m
    let r := ofbChunk bld m (x + 1) bs
    ((b ^^^ m.1.get ⟨x % 16, by omega⟩) :: r.1, r.2)

/-- The outer loop of 44_ofb.md R126 over the bytes still to do, `count` encryptions made before: a chunk of at most
`blockLen` bytes from the tiled IV, and then chunks of NEXT_CHUNK bytes. A chunk takes at least one byte, so as many
turns as there are bytes suffice. Answers the bytes and the new count. -/
def ofbChunks (bld : Build) (iv : Quad) : (turns blockLen count : Nat) → List Byte → List Byte × Nat
  | 0, _, count, _      => ([], count)
  | _ + 1, _, count, [] => ([], count)
  | turns + 1, blockLen, count, b :: bs =>
    let r := ofbChunk bld (tile iv, count) 0 ((b :: bs).take blockLen)
    let q := ofbChunks bld iv turns Config.nextChunk r.2.2 ((b :: bs).drop blockLen)
    (r.1 ++ q.1, q.2)

/-- The loop of `aes_ofb` (44_ofb.md R126): the bytes, and the number of AES encryptions it made (R129). -/
def ofbLoop (bld : Build) (iv : Quad) (bs : List Byte) : List Byte × Nat :=
  ofbChunks bld iv bs.length Config.firstChunk 0 bs

/-- The bytes of `aes_ofb` (44_ofb.md R126). -/
def aesOfb (bld : Build) (iv : Quad) (bs : List Byte) : List Byte := (ofbLoop bld iv bs).1

/-- The AES encryptions of one `aes_ofb` (44_ofb.md R129; 70_reset_and_hazards.md R201). No access reads it out. -/
def aesOfbCalls (bld : Build) (iv : Quad) (bs : List Byte) : Nat := (ofbLoop bld iv bs).2

/-- `aes_ofb(DATA, n, iv)` on the payload with the IV of a direction: the keystream of the IV held now, and then one
shuffle of it (44_ofb.md R126, R127, R132). -/
def ofbPayload (d : Dir) (s : State) : State :=
  shuffleIv d (mapPayload (aesOfb s.build (s.iv d)) s)

/-- OFB.S (44_ofb.md R130). -/
def execOfbS (s : State) : Outcome := requireInit (ofbPayload .send) s

/-- OFB.R (44_ofb.md R131). -/
def execOfbR (s : State) : Outcome := requireInit (ofbPayload .recv) s

/-! ### The closed form and the formula of the count -/

/-- The position of payload byte `p` in its chunk (44_ofb.md R128, R129). -/
def chunkPos (p : Nat) : Nat :=
  if p < Config.firstChunk then p else (p - Config.firstChunk) % Config.nextChunk

/-- `E^k`: `k` encryptions one after another. -/
def aesIterate (bld : Build) : Nat → Block → Block
  | 0, b     => b
  | k + 1, b => aesIterate bld k (aesEncrypt bld b)

/-- `S_(x div 16)[x mod 16]`, the keystream byte at position `x` of any chunk (44_ofb.md R128). -/
def keystreamByte (bld : Build) (iv : Quad) (x : Nat) : Byte :=
  (aesIterate bld (x / 16 + 1) (tile iv)).get ⟨x % 16, by omega⟩

/-- `ceil(r / 16)`. -/
def blocksOf (r : Nat) : Nat := (r + 15) / 16

/-- `naes(n)` as 44_ofb.md R129 writes it: the first chunk, and every later chunk `k` with
`r_k = min(1460, max(0, n - 1456 - 1460·(k-1)))` bytes; past `k = n` they are all empty. -/
def naes (n : Nat) : Nat :=
  blocksOf (min n Config.firstChunk) +
    ((List.range n).map fun k => blocksOf (min Config.nextChunk (n - Config.firstChunk - Config.nextChunk * k))).sum

end Sys2Proof.Machine
end

