-- ==== Sys2Proof/Machine/Session.lean ====
section
/-! DEFINITION. The session commands INIT, ENC and DEC (46_session.md R151-R156). -/

namespace Sys2Proof.Machine

/-- The effect of a successful INIT (46_session.md R152, R153): both IVs from the handshake, STATUS.INIT <- 1. A second
INIT replaces both IVs (R151). -/
def startSession (s : State) : State :=
  let r := readHandshake s
  { r.2.2 with sendIv := r.1, recvIv := r.2.1, status := r.2.2.status.loaded }

/-- INIT (46_session.md R152): E_SHORT_HS when LEN < 15 (60_exceptions.md R169), in both modes. -/
def execInit (s : State) : Outcome :=
  if s.payloadLen < Config.handshakeMin then .next (raise .shortHs s) else .next (succeed (startSession s))

/-- ENC (46_session.md R154, R155): in crypto mode whiten, then XOR the keystream and shuffle SEND_IV; in null mode the
identity. -/
def execEnc (s : State) : Outcome :=
  match s.build.cryptoMode with
  | .crypto => requireInit (fun s => ofbPayload .send (mapPayload mapleEncrypt s)) s
  | .null   => .next (succeed s)

/-- DEC (46_session.md R155, R156): in crypto mode XOR the keystream and shuffle RECV_IV, then de-whiten; in null mode
the identity. -/
def execDec (s : State) : Outcome :=
  match s.build.cryptoMode with
  | .crypto => requireInit (fun s => mapPayload mapleDecrypt (ofbPayload .recv s)) s
  | .null   => .next (succeed s)

end Sys2Proof.Machine
end

