-- ==== Sys2Proof/Machine/Dispatch.lean ====
section
/-! DEFINITION. One arm per command: which meaning each opcode of 30_encoding.md R67 runs. -/

namespace Sys2Proof.Machine

def exec (i : Instr) (s : State) : Host.Outcome State Fault Refusal :=
  match i with
  | .init   => Sys2Proof.Machine.execInit s
  | .enc    => Sys2Proof.Machine.execEnc s
  | .dec    => Sys2Proof.Machine.execDec s
  | .mkhdr  => Sys2Proof.Machine.execMkhdr s
  | .chklen => Sys2Proof.Machine.execChklen s
  | .aesblk => Sys2Proof.Machine.execAesblk s
  | .menc   => Sys2Proof.Machine.execMenc s
  | .mdec   => Sys2Proof.Machine.execMdec s
  | .shufS  => Sys2Proof.Machine.execShufS s
  | .shufR  => Sys2Proof.Machine.execShufR s
  | .ofbS   => Sys2Proof.Machine.execOfbS s
  | .ofbR   => Sys2Proof.Machine.execOfbR s

end Sys2Proof.Machine
end

