-- ==== Sys2Proof/Machine/Port.lean ====
section
/-! DEFINITION. The host port (20_memory.md R46-R52): the address map and what a read and a write of one byte do. A
write to CMD, which runs a command, is Engine.lean's. -/

namespace Sys2Proof.Machine

/-- What a host address names (20_memory.md R48). -/
inductive PortLoc where
  | cmd
  | status
  | lenLo
  | lenHi
  | hdr    (i : Fin 4)
  | sendIv (i : Fin 4)
  | recvIv (i : Fin 4)
  | reserved
  | data   (i : Nat)
deriving DecidableEq, Repr

/-- The address map (20_memory.md R48). -/
def locate (a : Addr) : PortLoc :=
  let n := a.toNat
  if n = 0x00000 then .cmd
  else if n = 0x00001 then .status
  else if n = 0x00002 then .lenLo
  else if n = 0x00003 then .lenHi
  else if h : n < 0x00008 then .hdr ⟨n % 4, by omega⟩
  else if h : n < 0x0000C then .sendIv ⟨n % 4, by omega⟩
  else if h : n < 0x00010 then .recvIv ⟨n % 4, by omega⟩
  else if n < 0x10000 then .reserved
  else .data (n - 0x10000)

/-- A host read of byte `i` of the IV of a direction: the byte, once a session has been started; an unconstrained draw
while STATUS.INIT = 0 (10_state.md R20; 93_implementation_defined.md U2). DESIGN CHOICE (the form of the draw), log 4. -/
def readIvByte (d : Dir) (i : Fin 4) (s : State) : Byte × State :=
  if s.status.init then ((s.iv d).get i, s) else drawByte s

/-- A host read of DATA[i]: the byte, if it holds a value; an unconstrained draw if it holds none (10_state.md R30;
93_implementation_defined.md U1). -/
def readDataByte (i : Nat) (s : State) : Byte × State :=
  match s.data.lookup i with
  | some v => (v, s)
  | none   => drawByte s

/-- `MemRead(a, 1)` (20_memory.md R46, R48-R50): the byte returned, and the state with a draw counted if one was made.
A read has no other effect (R51). -/
def portRead (a : Addr) (s : State) : Byte × State :=
  match locate a with
  | .cmd      => (0x00, s)
  | .status   => (s.statusByte, s)
  | .lenLo    => (loByte s.len, s)
  | .lenHi    => (hiByte s.len, s)
  | .hdr i    => (s.hdr.get i, s)
  | .sendIv i => readIvByte .send i s
  | .recvIv i => readIvByte .recv i s
  | .reserved => (0x00, s)
  | .data i   => readDataByte i s

/-- `MemWrite(a, 1, v)` to any address but CMD (20_memory.md R48-R50): the byte named, or nothing where the write is
ignored. -/
def portWrite (a : Addr) (v : Byte) (s : State) : State :=
  match locate a with
  | .cmd      => s
  | .status   => s
  | .lenLo    => { s with len := hiByte s.len ++ v }
  | .lenHi    => { s with len := v ++ loByte s.len }
  | .hdr i    => { s with hdr := s.hdr.set v i }
  | .sendIv _ => s
  | .recvIv _ => s
  | .reserved => s
  | .data i   => writeData i [v] s

end Sys2Proof.Machine
end

