-- ==== Sys2Proof/Machine/Engine.lean ====
section
/-! DEFINITION. What one host event does: an access of the port, a command run by a write to CMD, or the reset input
(10_state.md R29; 20_memory.md R51, R57; 60_exceptions.md R172; 70_reset_and_hazards.md R191). -/

namespace Sys2Proof.Machine

/-- A byte written to CMD (10_state.md R29): decoded first (60_exceptions.md R172), then run to completion as one step;
an illegal byte raises E_ILLEGAL and does nothing else (30_encoding.md R70). -/
def runCommand (op : Byte) (s : State) : Outcome :=
  match decode op with
  | .command i => exec i s
  | .illegal _ => .next (raise .illegal s)

/-- One access of the host port (20_memory.md R46, R51, R57). The byte a read returns goes to the end of `results`. -/
def hostAccess (x : HostAccess) (s : State) : Outcome :=
  match x with
  | .read a    =>
    let r := portRead a s
    .next { r.2 with results := r.2.results ++ [r.1] }
  | .write a v =>
    match locate a with
    | .cmd => runCommand v s
    | _    => .next (portWrite a v s)

/-- One event from outside. -/
def hostEvent (e : HostEvent) (s : State) : Outcome :=
  match e with
  | .access x => hostAccess x s
  | .reset    => .next (applyReset s)

/-- Take the next host event and carry it out; with none to come the block does nothing (70_reset_and_hazards.md R193). -/
def takeEvent (s : State) : Outcome :=
  match s.pending with
  | []        => .next s
  | e :: rest => hostEvent e { s with pending := rest }

/-- The event that hands the machine the word `w` as its next command: a write of it to CMD. -/
def fetchEvent (w : Nat) : HostEvent := .access (.write 0x00000 (BitVec.ofNat 8 w))

/-- A host script put before whatever the host was going to do (30_encoding.md R73, R74). -/
def State.withScript (s : State) (ops : List HostOp) : State :=
  { s with pending := (ops.flatMap HostOp.expand).map HostEvent.access ++ s.pending }

end Sys2Proof.Machine
end

