-- ==== Sys2Proof/Machine/Step.lean ====
section
/-! DEFINITION. One step of the machine, and how a command is handed to it. -/

namespace Sys2Proof.Machine

/-- One step: the next host event (00_scope.md R8; 20_memory.md R57). HCC fetches nothing (10_state.md R32), so what
runs next is what the host does next. DESIGN CHOICE (the host as a list), log 7. -/
def step (s : State) : Host.Outcome State Fault Refusal := takeEvent s

/-- `s` with the word `w` as the host's next write to CMD, so that the next step runs that command. Nothing else
changes; the host's other events follow it. DESIGN CHOICE, log 10. -/
def State.withFetchWord (s : State) (_nbits w : Nat) : State :=
  { s with pending := fetchEvent w :: s.pending }

end Sys2Proof.Machine
end

