-- ==== Sys2Proof/Machine/Script.lean ====
section
/-! DEFINITION. The text of a host script (30_encoding.md R73, R74), read into the accesses it stands for, the bytes it
expects its reads to return, and the hex listing of an access (R75). Texts are lists of characters. What R73 leaves
open of the notation is a DESIGN CHOICE, log 21. -/

namespace Sys2Proof

/-- The parts of a text between separators, empty parts left out; `acc` is the part being read, last character first. -/
def pieces (sep : Char → Bool) (acc : List Char) : List Char → List (List Char)
  | []      => if acc.isEmpty then [] else [acc.reverse]
  | c :: cs =>
    if sep c then (if acc.isEmpty then pieces sep [] cs else acc.reverse :: pieces sep [] cs)
    else pieces sep (c :: acc) cs

/-- The words of one line: its comment dropped (30_encoding.md R73), split at blanks and commas. -/
def lineWords (line : List Char) : List (List Char) :=
  pieces (fun c => c == ' ' || c == '\t' || c == '\r' || c == ',') [] (line.takeWhile (· != ';'))

/-- The sixteen digits in order of value: those of a listing (30_encoding.md R75); the first ten are the decimal ones. -/
def digitChars : List Char := "0123456789ABCDEF".toList

/-- The value of a digit, its place among the sixteen. -/
def digitValue (c : Char) : Option Nat := digitChars.findIdx? (· == c.toUpper)

/-- The number that a non-empty word of digits of a base writes, the first digit the highest. -/
def digits (base : Nat) (w : List Char) : Option Nat :=
  match w.mapM digitValue with
  | some (d :: ds) => if (d :: ds).all (· < base) then some ((d :: ds).foldl (fun n x => base * n + x) 0) else none
  | _              => none

/-- A number of a script, decimal or `0x` hex (30_encoding.md R73). -/
def number : List Char → Option Nat
  | '0' :: 'x' :: w => digits 16 w
  | w               => digits 10 w

/-- A byte of a `sethdr` or `wrdata` run, hex with or without `0x` (95_test_vectors.md P1, P2). -/
def runByte : List Char → Option Nat
  | '0' :: 'x' :: w => digits 16 w
  | w               => digits 16 w

/-- The command a mnemonic names (30_encoding.md R67, R74). -/
def commandNamed (w : List Char) : Option Instr :=
  (opcodeMap.find? fun row => row.2.mnemonic.toList == w).map (·.2)

/-- The operation of a line without expectation (30_encoding.md R73, R74). -/
def readOp (name : List Char) (args : List (List Char)) : Option HostOp :=
  if name == "wr".toList then
    match args.mapM number with
    | some [a, v] => some (.wr a v)
    | _           => none
  else if name == "rd".toList then
    match args.mapM number with
    | some [a] => some (.rd a)
    | _        => none
  else if name == "cmd".toList then
    match args with
    | [m] => (commandNamed m).map .cmd
    | _   => none
  else if name == "setlen".toList then
    match args.mapM number with
    | some [n] => some (.setlen n)
    | _        => none
  else if name == "sethdr".toList then
    match args.mapM runByte with
    | some [b0, b1, b2, b3] => some (.sethdr b0 b1 b2 b3)
    | _                     => none
  else if name == "wrdata".toList then
    match args with
    | k :: b :: bs =>
      match number k, (b :: bs).mapM runByte with
      | some k, some bytes => some (.wrdata k bytes)
      | _, _               => none
    | _ => none
  else if name == "filldata".toList then
    match args.mapM number with
    | some [k, n, b] => some (.filldata k n b)
    | _              => none
  else if name == "rddata".toList then
    match args.mapM number with
    | some [k, n] => some (.rddata k n)
    | _           => none
  else if name == "rdiv".toList then
    match args with
    | [['S']] => some (.rdiv .send)
    | [['R']] => some (.rdiv .recv)
    | _       => none
  else if args.isEmpty then
    if name == "rdstatus".toList then some .rdstatus
    else if name == "rdhdr".toList then some .rdhdr
    else if name == "rdlen".toList then some .rdlen
    else none
  else none

/-- A line from its words: `rd A => V` with its expectation (30_encoding.md R73), or an operation. -/
def readLine : List (List Char) → Option HostLine
  | [n, a, ['=', '>'], v] =>
    if n == "rd".toList then
      match number a, number v with
      | some a, some v => some ⟨.rd a, some v⟩
      | _, _           => none
    else none
  | n :: args => (readOp n args).map (⟨·, none⟩)
  | []        => none

/-- A host script, one operation per line, lines without a word left out (30_encoding.md R73); nothing where a line is
no operation or is not well-formed. -/
def readScript (text : List Char) : Option (List HostLine) :=
  match (((pieces (· == '\n') [] text).map lineWords).filter (!·.isEmpty)).mapM readLine with
  | some ls => if ls.all HostLine.wellFormed then some ls else none
  | none    => none

/-- The accesses of a script, in order (30_encoding.md R74). -/
def scriptAccesses (ls : List HostLine) : List HostAccess := ls.flatMap (·.op.expand)

/-- For each read of a script, in order, the byte the script states for it, if any (30_encoding.md R73). -/
def scriptExpected (ls : List HostLine) : List (Option Nat) :=
  ls.flatMap fun l => (l.op.expand.filter fun x => !x.isWrite).map fun _ => l.expected

/-- The bytes that the reads returned are those the script states, wherever it states one (30_encoding.md R73). -/
def meetsExpected : List (Option Nat) → List Byte → Bool
  | [], []                => true
  | none :: es, _ :: vs   => meetsExpected es vs
  | some e :: es, v :: vs => v.toNat == e && meetsExpected es vs
  | _, _                  => false

/-- The hex digit of a number below 16. -/
def hexDigit (n : Nat) : Char := digitChars.getD n '0'

/-- A listing word shown as 7 hex digits (30_encoding.md R75). -/
def listing (t : BitVec 26) : List Char :=
  '0' :: 'x' :: (List.range 7).map fun i => hexDigit (t.toNat / 16 ^ (6 - i) % 16)

end Sys2Proof
end

