-- ==== Sys2Proof/Safety.lean ====
section
/-! DEFINITION. What statements about the machine are made of: the invariant of the state, the byte the spec's address
map puts at an address, what a command may have read and what it left alone, and the host's own frame policy. -/

namespace Sys2Proof.Machine

/-- The invariant of the state: DATA is in canonical form, STATUS.ERR is 0, 1, 2 or 3 (10_state.md R28), and a code in
STATUS.ERR has been recorded in ERRSEEN (60_exceptions.md R171). -/
def State.inv (s : State) : Bool :=
  s.data.wf && decide (s.status.err.toNat ≤ 3) && (s.status.err == 0 || s.status.errSeen)

/-- The step answers a next state: it neither faults nor refuses. -/
def State.goesOn (s : State) : Prop := ∃ t, step s = .next t

/-- Several commands one after another, with no other host access between them. -/
def execAll : List Instr → State → Outcome
  | [], s      => .next s
  | i :: is, s =>
    match exec i s with
    | .next t    => execAll is t
    | .fault r   => .fault r
    | .refused r => .refused r

/-- The byte at a host address by the read column of 20_memory.md R48, where there is one: an IV byte has none while
STATUS.INIT = 0 (10_state.md R20), nor has a DATA byte that holds no value (R30). -/
def State.hostByte (s : State) (a : Addr) : Option Byte :=
  let n := a.toNat
  if n = 0x00000 then some 0x00
  else if n = 0x00001 then some s.statusByte
  else if n = 0x00002 then some (s.len.extractLsb' 0 8)
  else if n = 0x00003 then some (s.len.extractLsb' 8 8)
  else if n ≤ 0x00007 then [s.hdr.b0, s.hdr.b1, s.hdr.b2, s.hdr.b3][n - 4]?
  else if n ≤ 0x0000B then
    if s.status.init then [s.sendIv.b0, s.sendIv.b1, s.sendIv.b2, s.sendIv.b3][n - 8]? else none
  else if n ≤ 0x0000F then
    if s.status.init then [s.recvIv.b0, s.recvIv.b1, s.recvIv.b2, s.recvIv.b3][n - 12]? else none
  else if n ≤ 0x0FFFF then some 0x00
  else s.data.lookup (n - 0x10000)

/-- The addresses a host write stores at, by the write column of 20_memory.md R48: LEN, HDR and DATA. -/
def hostWritable (a : Addr) : Bool :=
  (2 ≤ a.toNat && a.toNat ≤ 7) || 0x10000 ≤ a.toNat

/-- STATUS after a command that succeeded, and after one that raised the error of a code (60_exceptions.md R170,
R171). -/
def Status.ok (st : Status) : Status := ⟨st.init, st.errSeen, 0⟩

/-- See `Status.ok`. -/
def Status.error (st : Status) (code : BitVec 4) : Status := ⟨st.init, true, code⟩

/-- `bs` is what a read of DATA from index `a` up may return (10_state.md R30): each byte that holds a value is as it
is; nothing is said of the others. -/
def State.mayRead (s : State) (a : Nat) (bs : List Byte) : Prop :=
  ∀ (i : Nat) (h : i < bs.length) (v : Byte), s.data.lookup (a + i) = some v → bs[i] = v

/-- DATA holds `bs` from index `a` up. -/
def State.holds (s : State) (a : Nat) (bs : List Byte) : Prop :=
  ∀ (i : Nat) (h : i < bs.length), s.data.lookup (a + i) = some bs[i]

/-- No byte of DATA at or above index `n` changed. -/
def sameDataFrom (n : Nat) (s t : State) : Prop := ∀ a, n ≤ a → t.data.lookup a = s.data.lookup a

/-- LEN, HDR, SEND_IV, RECV_IV, the build and what is the host's are unchanged: what a command that writes only DATA
and STATUS leaves alone. -/
def sameRegisters (s t : State) : Prop :=
  t.build = s.build ∧ t.len = s.len ∧ t.hdr = s.hdr ∧ t.sendIv = s.sendIv ∧ t.recvIv = s.recvIv ∧
    t.pending = s.pending ∧ t.results = s.results

/-- Two builds have the same SBOX, T and KEY; their modes may differ. -/
def sameTables (x y : Build) : Prop :=
  x.sbox = y.sbox ∧ x.shuffleTable = y.shuffleTable ∧ x.keySchedule = y.keySchedule

/-- How much of DATA a command may write: DATA[0 .. n) (20_memory.md R55). -/
def dataWritten (i : Instr) (s : State) : Nat :=
  match i with
  | .menc | .mdec | .ofbS | .ofbR | .enc | .dec => s.payloadLen
  | .aesblk => 16
  | .init | .mkhdr | .chklen | .shufS | .shufR => 0

/-- MAX_FRAME_POLICY (00_scope.md R9; 45_header.md R148): the host's own check of LEN after CHKLEN. HCC enforces none. -/
def withinFramePolicy (maxFrame : Nat) (s : State) : Bool := s.payloadLen ≤ maxFrame

end Sys2Proof.Machine
end

