-- ==== Sys2Proof/Certificates/Slice0/Obligations.lean ====
section
/-! DEFINITION. The statements about HCC for the provers. Each docstring names the rules of spec/ it formalises. A read
of a DATA byte that holds no value is free (10_state.md R30), so the statements about commands say what the command
computes of the bytes it read, whatever those were (`State.mayRead`). -/

open Sys2Proof Sys2Proof.Machine

/-! ### Encoding -/

/-- Decoding the opcode of a command gives the command back, through the decoder and through the table's numbering
(30_encoding.md R66, R67, R72); and the twelve rows of the opcode map of R67. -/
def Obligations.EncodeThenDecode : Prop :=
  (∀ i : Instr, i.wellFormed = true →
    decode (encode i) = .command i ∧ decodeTableWord 8 (encode i).toNat = some i) ∧
  decode 0x01 = .command .init ∧ decode 0x02 = .command .enc ∧ decode 0x03 = .command .dec ∧
  decode 0x04 = .command .mkhdr ∧ decode 0x05 = .command .chklen ∧ decode 0x10 = .command .aesblk ∧
  decode 0x11 = .command .menc ∧ decode 0x12 = .command .mdec ∧ decode 0x14 = .command .shufS ∧
  decode 0x15 = .command .shufR ∧ decode 0x16 = .command .ofbS ∧ decode 0x17 = .command .ofbR

/-- The decoder is total (30_encoding.md R71): each byte is the opcode of one command or illegal, and the illegal ones
are the 244 that R70 lists. -/
def Obligations.DecoderIsTotal : Prop :=
  (∀ (op : Byte) (i : Instr), decode op = .command i ↔ op = encode i) ∧
  (∀ op : Byte, decode op = .illegal op ↔
    op = 0x00 ∨ (0x06 ≤ op ∧ op ≤ 0x0F) ∨ op = 0x13 ∨ (0x18 ≤ op ∧ op ≤ 0xFF)) ∧
  (∀ op : Byte, (∃ i, decode op = .command i) ∨ decode op = .illegal op) ∧
  ((List.range 256).filter fun n => decode (BitVec.ofNat 8 n) == .illegal (BitVec.ofNat 8 n)).length = 244

/-- The field structure of the opcode (30_encoding.md R68): OP[7:4] is the group, in 0x14..0x17 OP[0] selects the IV
and OP[1] the operation, and a decoder by fields gives the result of the table on every byte. -/
def Obligations.FieldDecoderAgrees : Prop :=
  (∀ i : Instr, i.group = .session ↔ 0x01 ≤ encode i ∧ encode i ≤ 0x05) ∧
  (∀ i : Instr, i.group = .primitive ↔ 0x10 ≤ encode i ∧ encode i ≤ 0x17) ∧
  (∀ i : Instr, (encode i).extractLsb' 4 4 = if i.group = .session then 0x0 else 0x1) ∧
  (∀ isOfb isRecv : Bool,
    (encode (ivCommand isOfb isRecv)).getLsbD 1 = isOfb ∧ (encode (ivCommand isOfb isRecv)).getLsbD 0 = isRecv) ∧
  ivCommand false false = .shufS ∧ ivCommand false true = .shufR ∧
  ivCommand true false = .ofbS ∧ ivCommand true true = .ofbR ∧
  (∀ op : Byte, decodeByFields op = decode op)

/-- The listing word of a host access (30_encoding.md R75): T[25] is 1 for a write, T[24:8] the address, T[7:0] the
data, 0 for a read; it is shown as 7 hex digits; the rule's examples. That the word and the access determine each other
rests on the model's choice for a read word with data bits set, which stands for no access (log 18). -/
def Obligations.ListingWordFields : Prop :=
  (∀ (a : Addr) (v : Byte),
    (HostAccess.encode (.write a v)).getLsbD 25 = true ∧ (HostAccess.encode (.write a v)).extractLsb' 8 17 = a ∧
    (HostAccess.encode (.write a v)).extractLsb' 0 8 = v) ∧
  (∀ a : Addr,
    (HostAccess.encode (.read a)).getLsbD 25 = false ∧ (HostAccess.encode (.read a)).extractLsb' 8 17 = a ∧
    (HostAccess.encode (.read a)).extractLsb' 0 8 = 0) ∧
  (∀ (t : BitVec 26) (x : HostAccess), decodeAccess t = some x ↔ t = x.encode) ∧
  (∀ t : BitVec 26, (listing t).length = 9 ∧ number (listing t) = some t.toNat) ∧
  (HostOp.cmd .enc).expand = [.write 0x00000 0x02] ∧
  (HostOp.cmd .enc).expand.map (fun x => listing x.encode) = ["0x2000002".toList] ∧
  (HostOp.setlen 4).expand.map (fun x => listing x.encode) = ["0x2000204".toList, "0x2000300".toList]

/-- The expansions of the pseudo-operations, row by row (30_encoding.md R74); a `wrdata`, `filldata` or `rddata` whose
numbers fit is one access for each byte, at 0x10000+K+i, in increasing i. -/
def Obligations.PseudoOperationsExpand : Prop :=
  (∀ i : Instr, (HostOp.cmd i).expand = [.write 0x00000 (encode i)]) ∧
  (∀ n : Nat, n < 65536 → ∃ lo hi : Byte,
    (HostOp.setlen n).expand = [.write 0x00002 lo, .write 0x00003 hi] ∧ lo.toNat = n % 256 ∧ hi.toNat = n / 256) ∧
  (∀ b0 b1 b2 b3 : Byte, (HostOp.sethdr b0.toNat b1.toNat b2.toNat b3.toNat).expand =
    [.write 0x00004 b0, .write 0x00005 b1, .write 0x00006 b2, .write 0x00007 b3]) ∧
  HostOp.rdstatus.expand = [.read 0x00001] ∧
  (HostOp.rdiv .send).expand = [.read 0x00008, .read 0x00009, .read 0x0000A, .read 0x0000B] ∧
  (HostOp.rdiv .recv).expand = [.read 0x0000C, .read 0x0000D, .read 0x0000E, .read 0x0000F] ∧
  HostOp.rdhdr.expand = [.read 0x00004, .read 0x00005, .read 0x00006, .read 0x00007] ∧
  HostOp.rdlen.expand = [.read 0x00002, .read 0x00003] ∧
  (∀ (k : Nat) (bytes : List Nat), (HostOp.wrdata k bytes).wellFormed = true →
    (HostOp.wrdata k bytes).expand.length = bytes.length ∧
    ∀ (i : Nat) (h : i < bytes.length), ∃ (a : Addr) (v : Byte),
      (HostOp.wrdata k bytes).expand[i]? = some (.write a v) ∧ a.toNat = 0x10000 + k + i ∧ v.toNat = bytes[i]) ∧
  (∀ k n b : Nat, (HostOp.filldata k n b).wellFormed = true →
    (HostOp.filldata k n b).expand.length = n ∧
    ∀ i : Nat, i < n → ∃ (a : Addr) (v : Byte),
      (HostOp.filldata k n b).expand[i]? = some (.write a v) ∧ a.toNat = 0x10000 + k + i ∧ v.toNat = b) ∧
  (∀ k n : Nat, (HostOp.rddata k n).wellFormed = true →
    (HostOp.rddata k n).expand.length = n ∧
    ∀ i : Nat, i < n → ∃ a : Addr,
      (HostOp.rddata k n).expand[i]? = some (.read a) ∧ a.toNat = 0x10000 + k + i)

/-! ### A step -/

/-- A step whose event is a write of a byte to CMD runs the command the byte decodes to, on the state with that event
taken off the host's list (10_state.md R29; 60_exceptions.md R172). The second clause says it of a command handed over
by the model's own `withFetchWord` (log 10). -/
def Obligations.StepRunsDecodedCommand : Prop :=
  (∀ (s : State) (op : Byte) (rest : List HostEvent) (i : Instr),
    s.pending = .access (.write 0x00000 op) :: rest → decode op = .command i →
    step s = exec i { s with pending := rest }) ∧
  (∀ (s : State) (i : Instr), step (s.withFetchWord 8 (encode i).toNat) = exec i s)

/-- A write of an illegal opcode, one of 244, raises E_ILLEGAL and changes nothing but STATUS.ERR and STATUS.ERRSEEN
(30_encoding.md R70; 60_exceptions.md R171, R172); every other opcode is a command. -/
def Obligations.IllegalOpcodeOnlyReports : Prop :=
  let illegal := fun op : Byte => op = 0x00 ∨ (0x06 ≤ op ∧ op ≤ 0x0F) ∨ op = 0x13 ∨ (0x18 ≤ op ∧ op ≤ 0xFF)
  (∀ (s : State) (op : Byte) (rest : List HostEvent),
    s.pending = .access (.write 0x00000 op) :: rest → illegal op →
    step s = .next { s with pending := rest, status := s.status.error 1 }) ∧
  ((List.range 256).filter fun n => decide (illegal (BitVec.ofNat 8 n))).length = 244 ∧
  (∀ op : Byte, ¬ illegal op → ∃ i, decode op = .command i)

/-- Host accesses take effect one at a time, in the order the host issues them (20_memory.md R57): a step takes the
first event and no other, only a read adds to the bytes the host has read, one at the end; with no event to come the
block does nothing (70_reset_and_hazards.md R193). The host as a list is the model's choice (log 7, log 8). -/
def Obligations.StepTakesOneEvent : Prop :=
  ∀ s t : State, step s = .next t →
    t.pending = s.pending.tail ∧ (s.pending = [] → t = s) ∧
    (∀ a rest, s.pending = .access (.read a) :: rest → ∃ v, t.results = s.results ++ [v]) ∧
    ((∀ a rest, s.pending ≠ .access (.read a) :: rest) → t.results = s.results)

/-- A host read returns the byte the address map gives (20_memory.md R48, R49, R50) and has no side effect (R51): the
state is as before but for the host's own list and the byte it was given. -/
def Obligations.HostReadReturnsMappedByte : Prop :=
  ∀ (s : State) (a : Addr) (rest : List HostEvent) (v : Byte),
    s.pending = .access (.read a) :: rest → s.hostByte a = some v →
    step s = .next { s with pending := rest, results := s.results ++ [v] }

/-- A host read where there is no value, an IV byte before INIT or a DATA byte never written, completes and returns
one byte of which nothing is known (10_state.md R20, R30). That the draws are numbered, and that a number draws the same
byte in every block, is the model's choice (log 5, log 22). -/
def Obligations.HostReadWithoutValueDraws : Prop :=
  ∀ (s : State) (a : Addr) (rest : List HostEvent),
    s.pending = .access (.read a) :: rest → s.hostByte a = none →
    step s = .next { s with pending := rest, results := s.results ++ [Config.freeByte s.draws], draws := s.draws + 1 }

/-- A host write to any address but CMD (20_memory.md R48, R49, R50, R51): where the address stores, the byte there
becomes v and every other address reads as before; where it does not, every address reads as before. -/
def Obligations.HostWriteChangesOneByte : Prop :=
  ∀ (s : State) (a : Addr) (v : Byte) (rest : List HostEvent),
    s.pending = .access (.write a v) :: rest → a ≠ 0 →
    ∃ t, step s = .next t ∧
      (∀ b : Addr, t.hostByte b = if b = a ∧ hostWritable a = true then some v else s.hostByte b) ∧
      t.build = s.build ∧ t.status = s.status ∧ t.sendIv = s.sendIv ∧ t.recvIv = s.recvIv ∧
      t.pending = rest ∧ t.results = s.results ∧ t.draws = s.draws

/-- A host write other than to CMD is idempotent (20_memory.md R51). -/
def Obligations.HostWriteIsIdempotent : Prop :=
  ∀ (s : State) (a : Addr) (v : Byte) (rest : List HostEvent),
    s.pending = .access (.write a v) :: .access (.write a v) :: rest → a ≠ 0 →
    ∃ t, step s = .next t ∧ step t = .next { t with pending := rest }

/-- STATUS is laid out as 10_state.md R23 says, with BUSY 0 (R26) and CRYPTO the build's mode (R25). -/
def Obligations.StatusByteLayout : Prop :=
  ∀ s : State,
    s.statusByte.getLsbD 0 = s.status.init ∧
    s.statusByte.getLsbD 1 = decide (s.build.cryptoMode = .crypto) ∧
    s.statusByte.getLsbD 2 = false ∧
    s.statusByte.getLsbD 3 = s.status.errSeen ∧
    s.statusByte.extractLsb' 4 4 = s.status.err

/-! ### Reset -/

/-- Reset (70_reset_and_hazards.md R191), at power-on and when the reset input is asserted: STATUS.INIT, ERRSEEN and ERR
are 0, LEN and HDR are 0, no IV byte and no DATA byte has a value, the build stays; and no other event clears
STATUS.INIT or STATUS.ERRSEEN. -/
def Obligations.ResetInputClears : Prop :=
  (∀ b : Build, (State.resetOf b).status = ⟨false, false, 0⟩ ∧ (State.resetOf b).len = 0x0000 ∧
    (State.resetOf b).hdr = ⟨0x00, 0x00, 0x00, 0x00⟩ ∧ (State.resetOf b).build = b ∧
    ∀ a : Addr, (8 ≤ a.toNat ∧ a.toNat ≤ 15) ∨ 0x10000 ≤ a.toNat → (State.resetOf b).hostByte a = none) ∧
  (∀ (s : State) (rest : List HostEvent), s.pending = .reset :: rest →
    ∃ t, step s = .next t ∧ t.status = ⟨false, false, 0⟩ ∧ t.len = 0x0000 ∧ t.hdr = ⟨0x00, 0x00, 0x00, 0x00⟩ ∧
      (∀ a : Addr, (8 ≤ a.toNat ∧ a.toNat ≤ 15) ∨ 0x10000 ≤ a.toNat → t.hostByte a = none) ∧
      t.build = s.build ∧ t.pending = rest) ∧
  (∀ s t : State, step s = .next t → s.pending.head? ≠ some .reset →
    (s.status.init = true → t.status.init = true) ∧ (s.status.errSeen = true → t.status.errSeen = true))

/-- After reset a host read of STATUS returns 0x02 in crypto mode and 0x00 in null mode (70_reset_and_hazards.md
R192). -/
def Obligations.StatusReadAfterReset : Prop :=
  ∀ (s : State) (rest : List HostEvent),
    s.pending = .reset :: .access (.read 0x00001) :: rest →
    ∃ t u, step s = .next t ∧ step t = .next u ∧
      u.results = s.results ++ [if s.build.cryptoMode = .crypto then 0x02 else 0x00]

/-! ### The errors -/

/-- E_NOT_INIT (60_exceptions.md R168): raised by SHUF.S, SHUF.R, OFB.S and OFB.R in either mode, and by ENC, DEC and
MKHDR in crypto mode, when STATUS.INIT = 0, with no other change; and by no other command. -/
def Obligations.IvCommandsNeedSession : Prop :=
  (∀ (i : Instr) (s : State), s.status.init = false →
    (i ∈ [Instr.shufS, .shufR, .ofbS, .ofbR] ∨ (i ∈ [Instr.enc, .dec, .mkhdr] ∧ s.build.cryptoMode = .crypto)) →
    exec i s = .next { s with status := s.status.error 2 }) ∧
  (∀ (i : Instr) (s t : State), exec i s = .next t → t.status.err = 2 →
    s.status.init = false ∧
    (i ∈ [Instr.shufS, .shufR, .ofbS, .ofbR] ∨ (i ∈ [Instr.enc, .dec, .mkhdr] ∧ s.build.cryptoMode = .crypto)))

/-- Errors are precise (60_exceptions.md R171): a byte written to CMD that ends with an error code has changed STATUS.ERR
and STATUS.ERRSEEN and nothing else, and it has set ERRSEEN, which then stays 1 until reset. -/
def Obligations.ErrorsArePrecise : Prop :=
  (∀ (op : Byte) (s t : State), runCommand op s = .next t → t.status.err ≠ 0 →
    t = { s with status := s.status.error t.status.err }) ∧
  (∀ s t : State, step s = .next t → s.pending.head? ≠ some .reset →
    s.status.errSeen = true → t.status.errSeen = true)

/-- After a command STATUS.ERR is 0, 1, 2 or 3 (10_state.md R28; 60_exceptions.md R167), and where it is 0 ERRSEEN is
unchanged (60_exceptions.md R170). -/
def Obligations.CommandLeavesKnownError : Prop :=
  ∀ (op : Byte) (s : State), ∃ t, runCommand op s = .next t ∧
    (t.status.err = 0 ∨ t.status.err = 1 ∨ t.status.err = 2 ∨ t.status.err = 3) ∧
    (t.status.err = 0 → t.status.errSeen = s.status.errSeen)

/-- AESBLK, MENC, MDEC and CHKLEN never raise an error, and INIT raises only E_SHORT_HS (60_exceptions.md R174). -/
def Obligations.TotalCommandsNeverFail : Prop :=
  (∀ (i : Instr) (s : State), i ∈ [Instr.aesblk, .menc, .mdec, .chklen] →
    ∃ t, exec i s = .next t ∧ t.status.err = 0) ∧
  (∀ s t : State, exec .init s = .next t → t.status.err = 0 ∨ t.status.err = 3)

/-! ### INIT -/

/-- INIT (46_session.md R152, R153; 60_exceptions.md R169): with LEN >= 15 it loads SEND_IV from DATA[7..11) and RECV_IV
from DATA[11..15), sets STATUS.INIT and clears STATUS.ERR, and changes nothing else; with LEN < 15 it raises E_SHORT_HS
and changes nothing else. The rule's example. -/
def Obligations.InitLoadsBothIvs : Prop :=
  encode .init = 0x01 ∧
  (∀ s : State, 15 ≤ s.len.toNat →
    ∃ (t : State) (x y : List Byte), exec .init s = .next t ∧
      x.length = 4 ∧ s.mayRead 7 x ∧ x = [t.sendIv.b0, t.sendIv.b1, t.sendIv.b2, t.sendIv.b3] ∧
      y.length = 4 ∧ s.mayRead 11 y ∧ y = [t.recvIv.b0, t.recvIv.b1, t.recvIv.b2, t.recvIv.b3] ∧
      t.status = ⟨true, s.status.errSeen, 0⟩ ∧ t.data = s.data ∧ t.len = s.len ∧ t.hdr = s.hdr ∧
      t.build = s.build ∧ t.pending = s.pending ∧ t.results = s.results) ∧
  (∀ s : State, s.len.toNat < 15 → exec .init s = .next { s with status := s.status.error 3 }) ∧
  (∀ s : State, s.len = 16 → s.build.cryptoMode = .crypto → s.status.errSeen = false →
    s.holds 0 [0x0E, 0x00, 0x53, 0x00, 0x01, 0x00, 0x31, 0x01, 0x02, 0x03, 0x04, 0x46, 0x72, 0x7A, 0x52, 0x08] →
    ∃ t, exec .init s = .next t ∧ t.sendIv = ⟨0x01, 0x02, 0x03, 0x04⟩ ∧ t.recvIv = ⟨0x46, 0x72, 0x7A, 0x52⟩ ∧
      t.statusByte = 0x03)

/-! ### AES -/

/-- The round structure of `aes_encrypt` (41_aes.md R82): add_round_key(0), thirteen full rounds numbered 1 to 13, and
a final round without mix_columns. -/
def Obligations.AesRoundStructure : Prop :=
  ∀ (bld : Build) (b : Block),
    aesEncrypt bld b =
      addRoundKey bld 14 (shiftRows (subBytes bld
        ((List.range 13).foldl
          (fun x r => addRoundKey bld (Fin.ofNat 16 (r + 1)) (mixColumns (shiftRows (subBytes bld x))))
          (addRoundKey bld 0 b))))

/-- The four steps of a round, byte by byte: sub_bytes (41_aes.md R83), shift_rows (R84), mix_columns (R86) and
add_round_key (R87). -/
def Obligations.AesStepsBytewise : Prop :=
  (∀ (bld : Build) (b : Block) (i : Fin 16), (subBytes bld b).get i = bld.sbox.byteAt (b.get i)) ∧
  (∀ (o : Block) (c r : Fin 4),
    (shiftRows o).get ⟨4 * c.val + r.val, by omega⟩ = o.get ⟨4 * ((c.val + r.val) % 4) + r.val, by omega⟩) ∧
  (∀ (b : Block) (c : Fin 4),
    let a0 := b.get ⟨4 * c.val, by omega⟩
    let a1 := b.get ⟨4 * c.val + 1, by omega⟩
    let a2 := b.get ⟨4 * c.val + 2, by omega⟩
    let a3 := b.get ⟨4 * c.val + 3, by omega⟩
    (mixColumns b).get ⟨4 * c.val, by omega⟩ = gmul a0 ^^^ a3 ^^^ a2 ^^^ gmul a1 ^^^ a1 ∧
    (mixColumns b).get ⟨4 * c.val + 1, by omega⟩ = gmul a1 ^^^ a0 ^^^ a3 ^^^ gmul a2 ^^^ a2 ∧
    (mixColumns b).get ⟨4 * c.val + 2, by omega⟩ = gmul a2 ^^^ a1 ^^^ a0 ^^^ gmul a3 ^^^ a3 ∧
    (mixColumns b).get ⟨4 * c.val + 3, by omega⟩ = gmul a3 ^^^ a2 ^^^ a1 ^^^ gmul a0 ^^^ a0) ∧
  (∀ (bld : Build) (r i : Fin 16) (b : Block),
    (addRoundKey bld r b).get i = b.get i ^^^ (bld.keySchedule.get r).get i)

/-- `gmul` (41_aes.md R85): the byte shifted left, XORed with 0x1B exactly when bit 7 was set; the rule's examples. -/
def Obligations.GmulDoubles : Prop :=
  (∀ x : Byte, gmul x = BitVec.truncate 8 (x <<< 1) ^^^ (if x.getLsbD 7 = true then 0x1B else 0x00)) ∧
  (∀ x : Byte, gmul x = (x <<< 1) ^^^ (0x1B &&& x.sshiftRight 7)) ∧
  gmul 0x57 = 0xAE ∧ gmul 0x80 = 0x1B ∧ gmul 0xFF = 0xE5 ∧ gmul 0x00 = 0x00

/-- `aes_encrypt` depends on its block, SBOX and round keys 0 to 14 only (41_aes.md R87, R89): not on KEY[240..256), T
or the mode. -/
def Obligations.AesReadsSboxAndKeyOnly : Prop :=
  ∀ (x y : Build) (b : Block),
    x.sbox = y.sbox → (∀ r : Fin 16, r ≠ 15 → x.keySchedule.get r = y.keySchedule.get r) →
    aesEncrypt x b = aesEncrypt y b

/-- AESBLK (41_aes.md R88): in every state it encrypts DATA[0..16) in place, whatever LEN, the mode and STATUS.INIT
are, clears STATUS.ERR, and leaves every other byte of DATA and every register alone. The rule's example. -/
def Obligations.AesblkEncryptsBlock : Prop :=
  encode .aesblk = 0x10 ∧
  (∀ s : State, ∃ (t : State) (b : Block), exec .aesblk s = .next t ∧
    s.mayRead 0 b.toList ∧ t.holds 0 (aesEncrypt s.build b).toList ∧
    sameDataFrom 16 s t ∧ sameRegisters s t ∧ t.status = s.status.ok) ∧
  (∀ s : State, s.build.sbox = sboxDefault → s.build.keySchedule = keyScheduleDefault →
    s.holds 0 (List.replicate 16 0x00) →
    ∃ t, exec .aesblk s = .next t ∧
      t.holds 0 [0x01, 0x62, 0x24, 0x5F, 0x02, 0x43, 0x43, 0xE2, 0xF7, 0xC0, 0xF9, 0x57, 0x27, 0x7C, 0x44, 0x3E])

/-! ### Maple whitening -/

/-- The 8-bit rotations (42_maple.md R101, R102): the formulas with their guard, for every count; `ror8` undoes
`rol8`. -/
def Obligations.ByteRotations : Prop :=
  (∀ (b : Byte) (c : Nat), rol8 b c =
    if c % 8 = 0 then b else BitVec.truncate 8 ((b <<< (c % 8)) ||| (b >>> (8 - c % 8)))) ∧
  (∀ (b : Byte) (c : Nat), ror8 b c =
    if c % 8 = 0 then b else BitVec.truncate 8 ((b >>> (c % 8)) ||| (b <<< (8 - c % 8)))) ∧
  (∀ (b : Byte) (c : Nat), ror8 (rol8 b c) c = b)

/-- The forward pass of `maple_encrypt` (42_maple.md R105) with its counter (R103): the byte at index k sees
`datalen = (n - k) mod 256` and the `remember` of the byte before it. -/
def Obligations.ForwardPassBytewise : Prop :=
  ∀ bs : List Byte, (forwardPass bs).length = bs.length ∧
    ∃ cur : Nat → Byte, ∀ (k : Nat) (h : k < bs.length),
      cur k = (rol8 bs[k] 3 + BitVec.ofNat 8 (bs.length - k)) ^^^ (if k = 0 then 0 else cur (k - 1)) ∧
      (forwardPass bs)[k]? = some (~~~(ror8 (cur k) ((bs.length - k) % 256)) + 0x48)

/-- The reverse pass of `maple_encrypt` (42_maple.md R106) with its counter (R103): the byte at index i sees
`datalen = (i + 1) mod 256` and the `remember` of the byte after it. -/
def Obligations.ReversePassBytewise : Prop :=
  ∀ bs : List Byte, (reversePass bs).length = bs.length ∧
    ∃ cur : Nat → Byte, ∀ (i : Nat) (h : i < bs.length),
      cur i = (rol8 bs[i] 4 + BitVec.ofNat 8 (i + 1)) ^^^ (if i + 1 = bs.length then 0 else cur (i + 1)) ∧
      (reversePass bs)[i]? = some (ror8 (cur i ^^^ 0x13) 3)

/-- `maple_decrypt` is the inverse of `maple_encrypt` on buffers of every length, in both orders, and both keep the
length (42_maple.md R107, R111). -/
def Obligations.MapleDecryptInvertsEncrypt : Prop :=
  ∀ bs : List Byte,
    (mapleEncrypt bs).length = bs.length ∧ (mapleDecrypt bs).length = bs.length ∧
    mapleDecrypt (mapleEncrypt bs) = bs ∧ mapleEncrypt (mapleDecrypt bs) = bs

/-- MENC (42_maple.md R109): in every state it whitens DATA[0..LEN) in place and clears STATUS.ERR, and leaves the rest
of DATA and every register alone. With LEN = 0 no byte changes; with LEN = 256 the counter starts at 0, so the first
rotation is by no place; the counter repeats every 256 bytes. The rule's example. -/
def Obligations.MencWhitensPayload : Prop :=
  encode .menc = 0x11 ∧
  (∀ s : State, ∃ (t : State) (bs : List Byte), exec .menc s = .next t ∧
    bs.length = s.len.toNat ∧ s.mayRead 0 bs ∧ t.holds 0 (mapleEncrypt bs) ∧
    sameDataFrom s.len.toNat s t ∧ sameRegisters s t ∧ t.status = s.status.ok) ∧
  passStart 256 = 0 ∧ (∀ b : Byte, ror8 b (passStart 256).toNat = b) ∧
  (∀ n k : Nat, passStart n - BitVec.ofNat 8 (k + 256) = passStart n - BitVec.ofNat 8 k) ∧
  mapleEncrypt [0x00] = [0xF6]

/-- MDEC (42_maple.md R110): in every state it de-whitens DATA[0..LEN) in place and clears STATUS.ERR, and leaves the
rest of DATA and every register alone. MENC then MDEC, and MDEC then MENC, restore every byte of DATA that held a value
(R111). The rule's examples. -/
def Obligations.MdecDewhitensPayload : Prop :=
  encode .mdec = 0x12 ∧
  (∀ s : State, ∃ (t : State) (bs : List Byte), exec .mdec s = .next t ∧
    bs.length = s.len.toNat ∧ s.mayRead 0 bs ∧ t.holds 0 (mapleDecrypt bs) ∧
    sameDataFrom s.len.toNat s t ∧ sameRegisters s t ∧ t.status = s.status.ok) ∧
  (∀ s : State, ∃ t, execAll [.menc, .mdec] s = .next t ∧
    ∀ (a : Nat) (v : Byte), s.data.lookup a = some v → t.data.lookup a = some v) ∧
  (∀ s : State, ∃ t, execAll [.mdec, .menc] s = .next t ∧
    ∀ (a : Nat) (v : Byte), s.data.lookup a = some v → t.data.lookup a = some v) ∧
  mapleDecrypt [0xF6] = [0x00] ∧ mapleDecrypt [0x00] = [0x17]

/-- Maple whitening reads no table, no key and no IV (42_maple.md R112): MENC, and MDEC, do the same to DATA from any
two states that agree on LEN and DATA. They must agree on the model's count of draws too, which makes them draw the
same bytes where DATA holds none: the model's choice (log 5, log 22). -/
def Obligations.MapleReadsPayloadOnly : Prop :=
  ∀ (i : Instr) (s u t w : State), i = .menc ∨ i = .mdec →
    s.len = u.len → s.data = u.data → s.draws = u.draws →
    exec i s = .next t → exec i u = .next w → t.data = w.data

/-! ### Shuffle -/

/-- `step_arith` (43_shuffle.md R117) as arithmetic modulo 256 on numbers: each update sees those before it. -/
def Obligations.StepArithModulo256 : Prop :=
  ∀ (bld : Build) (m : Quad) (v : Byte),
    let T := fun x : Byte => (bld.shuffleTable.byteAt x).toNat
    let r := stepArith bld m v
    r.b0.toNat = (m.b0.toNat + T m.b1 + (256 - v.toNat)) % 256 ∧
    r.b1.toNat = (m.b1.toNat + (256 - (m.b2.toNat ^^^ T v))) % 256 ∧
    r.b2.toNat = m.b2.toNat ^^^ ((T m.b3 + v.toNat) % 256) ∧
    r.b3.toNat = (m.b3.toNat + T v + (256 - r.b0.toNat)) % 256

/-- `step_rotate` (43_shuffle.md R118): the four bytes as a little-endian number W become those of
`(W << 3) | (W >> 29)` on 32 bits. -/
def Obligations.StepRotateIsRol32 : Prop :=
  ∀ m : Quad,
    let num := fun q : Quad => q.b0.toNat + 256 * q.b1.toNat + 65536 * q.b2.toNat + 16777216 * q.b3.toNat
    num (stepRotate m) = (8 * num m) % 2 ^ 32 + num m / 2 ^ 29

/-- `shuffle` (43_shuffle.md R116): from the seed, one step for each old IV byte in index order. SHUF.S (R120): once a
session has been started it replaces SEND_IV by its shuffle, clears STATUS.ERR and changes nothing else, in both modes;
before that it raises E_NOT_INIT. k of them apply the shuffle k times. The rule's example. -/
def Obligations.ShufSendShufflesSendIv : Prop :=
  (∀ (bld : Build) (iv : Quad), shuffle bld iv =
    [iv.b0, iv.b1, iv.b2, iv.b3].foldl (fun m v => stepRotate (stepArith bld m v)) ⟨0xF2, 0x53, 0x50, 0xC6⟩) ∧
  encode .shufS = 0x14 ∧
  (∀ s : State, s.status.init = true →
    exec .shufS s = .next { s with sendIv := shuffle s.build s.sendIv, status := s.status.ok }) ∧
  (∀ s : State, s.status.init = false → exec .shufS s = .next { s with status := s.status.error 2 }) ∧
  (∀ (k : Nat) (s : State), s.status.init = true →
    ∃ t, execAll (List.replicate k .shufS) s = .next t ∧ t.sendIv = (shuffle s.build)^[k] s.sendIv) ∧
  shuffle defaultBuild ⟨0x00, 0x00, 0x00, 0x00⟩ = ⟨0x11, 0xBB, 0x64, 0xC7⟩

/-- SHUF.R (43_shuffle.md R121): the same for RECV_IV. -/
def Obligations.ShufRecvShufflesRecvIv : Prop :=
  encode .shufR = 0x15 ∧
  (∀ s : State, s.status.init = true →
    exec .shufR s = .next { s with recvIv := shuffle s.build s.recvIv, status := s.status.ok }) ∧
  (∀ s : State, s.status.init = false → exec .shufR s = .next { s with status := s.status.error 2 }) ∧
  shuffle defaultBuild ⟨0x01, 0x02, 0x03, 0x04⟩ = ⟨0x7B, 0xBF, 0xA4, 0x56⟩

/-! ### OFB -/

/-- The keystream in closed form (44_ofb.md R128, R129): payload byte p is XORed with the byte of the keystream at p's
position in its chunk, which depends on the IV and that position alone. -/
def Obligations.OfbKeystreamClosedForm : Prop :=
  ∀ (bld : Build) (iv : Quad) (bs : List Byte),
    (aesOfb bld iv bs).length = bs.length ∧
    ∀ (p : Nat) (h : p < bs.length),
      (aesOfb bld iv bs)[p]? = some (bs[p] ^^^ keystreamByte bld iv (chunkPos p))

/-- The chunk layout and the AES count of 44_ofb.md R129: chunk 0 starts at byte 0 and has 1456 bytes, chunk k + 1 starts
at byte 1456 + 1460·k and has 1460; the loop over a chunk of r bytes leaves the tiled IV encrypted ceil(r / 16) times and
has counted as many encryptions; the one loop that makes the bytes of `aes_ofb` makes `naes(n)` of them. The rule's
values. -/
def Obligations.AesCountFormula : Prop :=
  (∀ x : Nat, x < 1456 → chunkPos x = x) ∧
  (∀ k x : Nat, x < 1460 → chunkPos (1456 + 1460 * k + x) = x) ∧
  (∀ (bld : Build) (iv : Quad) (count : Nat) (bs : List Byte),
    (ofbChunk bld (tile iv, count) 0 bs).2 =
      (aesIterate bld ((bs.length + 15) / 16) (tile iv), count + (bs.length + 15) / 16)) ∧
  (∀ (bld : Build) (iv : Quad) (bs : List Byte),
    ofbLoop bld iv bs = (aesOfb bld iv bs, aesOfbCalls bld iv bs) ∧ aesOfbCalls bld iv bs = naes bs.length) ∧
  (∀ n : Nat, naes n = (min n 1456 + 15) / 16 +
    ((List.range n).map fun k => (min 1460 (n - 1456 - 1460 * k) + 15) / 16).sum) ∧
  naes 0 = 0 ∧ naes 16 = 1 ∧ naes 17 = 2 ∧ naes 1456 = 91 ∧ naes 1457 = 92 ∧ naes 2916 = 183 ∧ naes 8192 = 515

/-- OFB.S (44_ofb.md R130): once a session has been started it XORs the keystream of SEND_IV into DATA[0..LEN), replaces
SEND_IV by its shuffle and clears STATUS.ERR, and leaves the rest of DATA and every other register alone, in both
modes; before that it raises E_NOT_INIT and changes nothing else. The rule's example. -/
def Obligations.OfbSendEncryptsPayload : Prop :=
  encode .ofbS = 0x16 ∧
  (∀ s : State, s.status.init = true → ∃ (t : State) (bs : List Byte), exec .ofbS s = .next t ∧
    bs.length = s.len.toNat ∧ s.mayRead 0 bs ∧ t.holds 0 (aesOfb s.build s.sendIv bs) ∧
    sameDataFrom s.len.toNat s t ∧ t.sendIv = shuffle s.build s.sendIv ∧
    sameRegisters { s with sendIv := t.sendIv } t ∧ t.status = s.status.ok) ∧
  (∀ s : State, s.status.init = false → exec .ofbS s = .next { s with status := s.status.error 2 }) ∧
  (∀ (bld : Build) (iv : Quad) (bs : List Byte), bs.length = 1457 →
    ∃ k : Byte, (aesOfb bld iv bs)[0]? = some (bs[0]! ^^^ k) ∧ (aesOfb bld iv bs)[1456]? = some (bs[1456]! ^^^ k)) ∧
  aesOfb defaultBuild ⟨0x01, 0x02, 0x03, 0x04⟩ (List.replicate 16 0x00) =
    [0xF0, 0xEE, 0xA4, 0xD2, 0x48, 0x95, 0xD6, 0x3F, 0xC0, 0xF5, 0xC0, 0x8D, 0x91, 0xA2, 0x66, 0xA3] ∧
  shuffle defaultBuild ⟨0x01, 0x02, 0x03, 0x04⟩ = ⟨0x7B, 0xBF, 0xA4, 0x56⟩

/-- OFB.R (44_ofb.md R131): the same with RECV_IV. The rule's example. -/
def Obligations.OfbRecvEncryptsPayload : Prop :=
  encode .ofbR = 0x17 ∧
  (∀ s : State, s.status.init = true → ∃ (t : State) (bs : List Byte), exec .ofbR s = .next t ∧
    bs.length = s.len.toNat ∧ s.mayRead 0 bs ∧ t.holds 0 (aesOfb s.build s.recvIv bs) ∧
    sameDataFrom s.len.toNat s t ∧ t.recvIv = shuffle s.build s.recvIv ∧
    sameRegisters { s with recvIv := t.recvIv } t ∧ t.status = s.status.ok) ∧
  (∀ s : State, s.status.init = false → exec .ofbR s = .next { s with status := s.status.error 2 }) ∧
  (∀ (bld : Build) (iv : Quad) (bs : List Byte), bs.length = 1457 →
    ∃ k : Byte, (aesOfb bld iv bs)[0]? = some (bs[0]! ^^^ k) ∧ (aesOfb bld iv bs)[1456]? = some (bs[1456]! ^^^ k)) ∧
  aesOfb defaultBuild ⟨0x01, 0x02, 0x03, 0x04⟩ (List.replicate 17 0x00) =
    [0xF0, 0xEE, 0xA4, 0xD2, 0x48, 0x95, 0xD6, 0x3F, 0xC0, 0xF5, 0xC0, 0x8D, 0x91, 0xA2, 0x66, 0xA3, 0xF8] ∧
  shuffle defaultBuild ⟨0x01, 0x02, 0x03, 0x04⟩ = ⟨0x7B, 0xBF, 0xA4, 0x56⟩

/-- Involution (44_ofb.md R133): OFB.S and then, on this block or another with the same tables in either mode, OFB.R
over the same n bytes from the same IV value restores them, and both leave their IV at `shuffle(iv)`; two passes in a
row from the IV and then its shuffle do not restore them all (default tables). -/
def Obligations.OfbTwiceRestoresPayload : Prop :=
  (∀ (bld : Build) (iv : Quad) (bs : List Byte), aesOfb bld iv (aesOfb bld iv bs) = bs) ∧
  (∀ s t u : State, s.status.init = true → u.status.init = true → sameTables u.build s.build →
    exec .ofbS s = .next t → u.recvIv = s.sendIv → u.len = s.len → u.data = t.data →
    t.sendIv = shuffle s.build s.sendIv ∧
    ∃ w, exec .ofbR u = .next w ∧ w.recvIv = shuffle s.build s.sendIv ∧
      ∀ (a : Nat) (v : Byte), s.data.lookup a = some v → w.data.lookup a = some v) ∧
  (∃ (iv : Quad) (bs : List Byte),
    aesOfb defaultBuild (shuffle defaultBuild iv) (aesOfb defaultBuild iv bs) ≠ bs)

/-! ### The header -/

/-- MKHDR (45_header.md R143): in crypto mode with a session it writes the header of R142 from SEND_IV[2], SEND_IV[3],
83 and LEN; without one it raises E_NOT_INIT; in null mode it writes LEN as a little-endian u32 (R146). It clears
STATUS.ERR and changes nothing else. The rule's example. -/
def Obligations.MkhdrBuildsHeader : Prop :=
  encode .mkhdr = 0x04 ∧
  (∀ s : State, s.build.cryptoMode = .crypto → s.status.init = true →
    exec .mkhdr s = .next { s with
      hdr := ⟨s.sendIv.b2 ^^^ 0x53, s.sendIv.b3,
              s.sendIv.b2 ^^^ 0x53 ^^^ s.len.extractLsb' 0 8, s.sendIv.b3 ^^^ s.len.extractLsb' 8 8⟩
      status := s.status.ok }) ∧
  (∀ s : State, s.build.cryptoMode = .crypto → s.status.init = false →
    exec .mkhdr s = .next { s with status := s.status.error 2 }) ∧
  (∀ s : State, s.build.cryptoMode = .null →
    exec .mkhdr s = .next { s with
      hdr := ⟨s.len.extractLsb' 0 8, s.len.extractLsb' 8 8, 0x00, 0x00⟩
      status := s.status.ok }) ∧
  (∀ s : State, s.build.cryptoMode = .crypto → s.status.init = true → s.sendIv = ⟨0x52, 0x30, 0x00, 0x00⟩ →
    s.len = 100 → ∃ t, exec .mkhdr s = .next t ∧ t.hdr = ⟨0x53, 0x00, 0x37, 0x00⟩)

/-- CHKLEN (45_header.md R144, R145): LEN becomes the XOR of the header's two little-endian halves, STATUS.ERR is
cleared and nothing else changes, in both modes and whatever STATUS.INIT is. The rule's example. -/
def Obligations.ChklenRecoversLength : Prop :=
  encode .chklen = 0x05 ∧
  (∀ s : State, exec .chklen s = .next { s with
    len := (s.hdr.b3 ++ s.hdr.b2) ^^^ (s.hdr.b1 ++ s.hdr.b0)
    status := s.status.ok }) ∧
  (∀ s : State, s.hdr = ⟨0x53, 0x00, 0x37, 0x00⟩ → ∃ t, exec .chklen s = .next t ∧ t.len = 100)

/-- Header round trip (45_header.md R147): for every IV and every LEN, MKHDR and then CHKLEN leave LEN as it was, in
both modes. -/
def Obligations.HeaderRoundTrip : Prop :=
  ∀ s : State, s.build.cryptoMode = .null ∨ s.status.init = true →
    ∃ t, execAll [.mkhdr, .chklen] s = .next t ∧ t.len = s.len

/-! ### Frames -/

/-- ENC (46_session.md R154, R155): in crypto mode with a session it whitens the payload and then XORs the keystream of
SEND_IV in, and SEND_IV becomes its shuffle; in null mode it changes nothing but STATUS.ERR; in crypto mode without a
session it raises E_NOT_INIT. The rest of DATA and every other register is unchanged. The rule's example. -/
def Obligations.EncEncryptsPayload : Prop :=
  encode .enc = 0x02 ∧
  (∀ s : State, s.build.cryptoMode = .crypto → s.status.init = true →
    ∃ (t : State) (bs : List Byte), exec .enc s = .next t ∧
      bs.length = s.len.toNat ∧ s.mayRead 0 bs ∧ t.holds 0 (aesOfb s.build s.sendIv (mapleEncrypt bs)) ∧
      sameDataFrom s.len.toNat s t ∧ t.sendIv = shuffle s.build s.sendIv ∧
      sameRegisters { s with sendIv := t.sendIv } t ∧ t.status = s.status.ok) ∧
  (∀ s : State, s.build.cryptoMode = .null → exec .enc s = .next { s with status := s.status.ok }) ∧
  (∀ s : State, s.build.cryptoMode = .crypto → s.status.init = false →
    exec .enc s = .next { s with status := s.status.error 2 }) ∧
  mapleEncrypt [0x00, 0x01, 0x02, 0x03] = [0xE6, 0xF1, 0xF2, 0x36] ∧
  aesOfb defaultBuild ⟨0x01, 0x02, 0x03, 0x04⟩ [0xE6, 0xF1, 0xF2, 0x36] = [0x16, 0x1F, 0x56, 0xE4] ∧
  shuffle defaultBuild ⟨0x01, 0x02, 0x03, 0x04⟩ = ⟨0x7B, 0xBF, 0xA4, 0x56⟩

/-- DEC (46_session.md R155, R156): in crypto mode with a session it XORs the keystream of RECV_IV into the payload and
then de-whitens it, and RECV_IV becomes its shuffle; in null mode it changes nothing but STATUS.ERR; in crypto mode
without a session it raises E_NOT_INIT. The rest of DATA and every other register is unchanged. The rule's example. -/
def Obligations.DecDecryptsPayload : Prop :=
  encode .dec = 0x03 ∧
  (∀ s : State, s.build.cryptoMode = .crypto → s.status.init = true →
    ∃ (t : State) (bs : List Byte), exec .dec s = .next t ∧
      bs.length = s.len.toNat ∧ s.mayRead 0 bs ∧ t.holds 0 (mapleDecrypt (aesOfb s.build s.recvIv bs)) ∧
      sameDataFrom s.len.toNat s t ∧ t.recvIv = shuffle s.build s.recvIv ∧
      sameRegisters { s with recvIv := t.recvIv } t ∧ t.status = s.status.ok) ∧
  (∀ s : State, s.build.cryptoMode = .null → exec .dec s = .next { s with status := s.status.ok }) ∧
  (∀ s : State, s.build.cryptoMode = .crypto → s.status.init = false →
    exec .dec s = .next { s with status := s.status.error 2 }) ∧
  mapleDecrypt (aesOfb defaultBuild ⟨0x01, 0x02, 0x03, 0x04⟩ [0x16, 0x1F, 0x56, 0xE4]) = [0x00, 0x01, 0x02, 0x03] ∧
  shuffle defaultBuild ⟨0x01, 0x02, 0x03, 0x04⟩ = ⟨0x7B, 0xBF, 0xA4, 0x56⟩

/-- ENC is MENC and then OFB.S (46_session.md R154, R155; 95_test_vectors.md P6): in crypto mode with a session the two
ways end in the same state. Where the payload holds no value this rests on the model's choice that both ways, starting
from one count of draws, draw the same bytes (log 22). -/
def Obligations.EncIsMencThenOfb : Prop :=
  ∀ s : State, s.build.cryptoMode = .crypto → s.status.init = true →
    execAll [.menc, .ofbS] s = exec .enc s

/-- End to end (46_session.md R157), block A sending to block B with A's SEND_IV as B's RECV_IV and the same tables:
what A encrypts with ENC, B decrypts with DEC over the same LEN to A's plaintext, whatever it was; and then B's RECV_IV
is A's SEND_IV again and all that the pair needs still holds, so that every next frame goes the same way. -/
def Obligations.DecryptAfterEncryptIsIdentity : Prop :=
  ∀ a b : State, a.build.cryptoMode = .crypto → b.build = a.build → a.status.init = true → b.status.init = true →
    b.recvIv = a.sendIv →
    ∃ a', exec .enc a = .next a' ∧ a'.build = a.build ∧ a'.status.init = true ∧
      (b.len = a.len → (∀ i, i < a.len.toNat → b.data.lookup i = a'.data.lookup i) →
        ∃ b', exec .dec b = .next b' ∧ b'.recvIv = a'.sendIv ∧ b'.build = b.build ∧ b'.status.init = true ∧
          ∀ (i : Nat) (v : Byte), i < a.len.toNat → a.data.lookup i = some v → b'.data.lookup i = some v)

/-- The wire frame (46_session.md R158): A issues MKHDR and ENC on one LEN; B, given A's header in HDR, recovers that LEN
with CHKLEN and, given the ciphertext in DATA[0..LEN), A's plaintext with DEC. Both in crypto mode with a session, the
same tables and A's SEND_IV as B's RECV_IV. -/
def Obligations.WireFrameRoundTrip : Prop :=
  ∀ a b : State, a.build.cryptoMode = .crypto → b.build = a.build → a.status.init = true → b.status.init = true →
    b.recvIv = a.sendIv →
    ∃ a', execAll [.mkhdr, .enc] a = .next a' ∧ a'.len = a.len ∧
      (b.hdr = a'.hdr → ∃ c, exec .chklen b = .next c ∧ c.len = a.len ∧
        ∀ d : Memory, (∀ i, i < a.len.toNat → d.lookup i = a'.data.lookup i) →
          ∃ b', exec .dec { c with data := d } = .next b' ∧ b'.recvIv = a'.sendIv ∧
            ∀ (i : Nat) (v : Byte), i < a.len.toNat → a.data.lookup i = some v → b'.data.lookup i = some v)

/-! ### The whole machine -/

/-- Every step keeps the invariant: DATA in canonical form, STATUS.ERR in 0..3 (10_state.md R28), an error code in
STATUS.ERR recorded in ERRSEEN (60_exceptions.md R171). -/
def Obligations.StepKeepsInvariant : Prop :=
  ∀ s t : State, s.inv = true → step s = .next t → t.inv = true

/-- The state after reset meets the invariant, in every build. -/
def Obligations.ResetMeetsInvariant : Prop :=
  (∀ b : Build, (State.resetOf b).inv = true) ∧ State.reset.inv = true

/-- The machine never stops: from every state a step answers a next state (60_exceptions.md R166, R176, R179). -/
def Obligations.MachineNeverStops : Prop :=
  (∀ s : State, s.goesOn) ∧ ∀ (i : Instr) (s : State), ∃ t, exec i s = .next t

/-- SBOX, T, KEY and CRYPTO_MODE never change (10_state.md R25, R37, R38): no command, no host access and no reset
writes them. -/
def Obligations.BuildNeverChanges : Prop :=
  ∀ s t : State, step s = .next t → t.build = s.build

/-- STATUS.INIT is set by a successful INIT, cleared only by reset, and changed by no other command or access
(10_state.md R24). -/
def Obligations.OnlyInitAndResetChangeInit : Prop :=
  (∀ (i : Instr) (s t : State), exec i s = .next t →
    t.status.init = (s.status.init || (i == .init && decide (15 ≤ s.len.toNat)))) ∧
  (∀ s t : State, step s = .next t → t.status.init ≠ s.status.init →
    s.pending.head? = some .reset ∨ s.pending.head? = some (.access (.write 0x00000 0x01)))

/-- STATUS.ERRSEEN (10_state.md R27): a command that raises an error sets it, no step but a reset clears it, and a
command that succeeds leaves it unchanged. -/
def Obligations.ErrSeenIsSticky : Prop :=
  (∀ (op : Byte) (s t : State), runCommand op s = .next t →
    t.status.errSeen = (s.status.errSeen || t.status.err != 0)) ∧
  (∀ s t : State, step s = .next t → s.status.errSeen = true → t.status.errSeen = false →
    s.pending.head? = some .reset)

/-- Which commands write the IVs (10_state.md R17, R18): SEND_IV only INIT, SHUF.S, OFB.S and, in crypto mode, ENC;
RECV_IV only INIT, SHUF.R, OFB.R and, in crypto mode, DEC. Only INIT loads a value that is not the shuffle of the old
one (R19). -/
def Obligations.IvWriters : Prop :=
  ∀ (i : Instr) (s t : State), exec i s = .next t →
    (t.sendIv ≠ s.sendIv → i ∈ [Instr.init, .shufS, .ofbS] ∨ (i = .enc ∧ s.build.cryptoMode = .crypto)) ∧
    (t.recvIv ≠ s.recvIv → i ∈ [Instr.init, .shufR, .ofbR] ∨ (i = .dec ∧ s.build.cryptoMode = .crypto)) ∧
    (i ≠ .init → (t.sendIv = s.sendIv ∨ t.sendIv = shuffle s.build s.sendIv) ∧
      (t.recvIv = s.recvIv ∨ t.recvIv = shuffle s.build s.recvIv))

/-- The two directions share no IV (20_memory.md R62; 60_exceptions.md R181): what a command but INIT makes of SEND_IV
depends only on the build, STATUS.INIT and SEND_IV, and the same for RECV_IV. -/
def Obligations.DirectionsAreIndependent : Prop :=
  ∀ (i : Instr) (s u t w : State), i ≠ .init → s.build = u.build → s.status.init = u.status.init →
    exec i s = .next t → exec i u = .next w →
    (s.sendIv = u.sendIv → t.sendIv = w.sendIv) ∧ (s.recvIv = u.recvIv → t.recvIv = w.recvIv)

/-- The DATA bytes a command may write (20_memory.md R55; 00_scope.md R13): DATA[0..LEN) for MENC, MDEC, OFB.S, OFB.R,
ENC and DEC, DATA[0..16) for AESBLK, none for the others; every other byte reads as before. -/
def Obligations.CommandsWriteOnlyTheirData : Prop :=
  ∀ (i : Instr) (s t : State), exec i s = .next t → sameDataFrom (dataWritten i s) s t

/-- Which commands write LEN and HDR (10_state.md R21, R22): CHKLEN alone writes LEN and MKHDR alone writes HDR; no
command touches what is the host's. -/
def Obligations.LenAndHdrWriters : Prop :=
  ∀ (i : Instr) (s t : State), exec i s = .next t →
    (i ≠ .chklen → t.len = s.len) ∧ (i ≠ .mkhdr → t.hdr = s.hdr) ∧
    t.pending = s.pending ∧ t.results = s.results

/-- A read of bytes that hold no value draws a fresh free value for each of them (10_state.md R30), and counts no other
draw: the draws of one read are distinct and follow all earlier ones. The numbering is the model's choice (log 5, log
11). -/
def Obligations.UnwrittenBytesAreDrawnAfresh : Prop :=
  ∀ (m : Memory) (a n d : Nat),
    (m.readRange a n d).1.length = n ∧ d ≤ (m.readRange a n d).2 ∧
    ∃ k : Nat → Nat,
      (∀ i, i < n → ∀ v, m.lookup (a + i) = some v → (m.readRange a n d).1[i]? = some v) ∧
      (∀ i, i < n → m.lookup (a + i) = none →
        (m.readRange a n d).1[i]? = some (Config.freeByte (k i)) ∧ d ≤ k i ∧ k i < (m.readRange a n d).2) ∧
      (∀ i j, i < j → j < n → m.lookup (a + i) = none → m.lookup (a + j) = none → k i < k j)
end

