-- ==== Sys2Proof/Laws/Bytes.lean ====
section
/-! SUPPORT. The functions over byte lists keep the length, and the small facts about rotations and byte arithmetic that
the passes of Maple whitening rest on. -/

namespace Sys2Proof.Machine

/-! ### Lengths -/

@[simp] theorem forwardLoop_length (r d : Byte) (bs : List Byte) : (forwardLoop r d bs).length = bs.length := by
  induction bs generalizing r d with
  | nil => rfl
  | cons b bs ih => simp [forwardLoop, ih]

@[simp] theorem reverseLoop_length (r d : Byte) (bs : List Byte) : (reverseLoop r d bs).length = bs.length := by
  induction bs generalizing r d with
  | nil => rfl
  | cons b bs ih => simp [reverseLoop, ih]

@[simp] theorem unforwardLoop_length (r d : Byte) (bs : List Byte) : (unforwardLoop r d bs).length = bs.length := by
  induction bs generalizing r d with
  | nil => rfl
  | cons b bs ih => simp [unforwardLoop, ih]

@[simp] theorem unreverseLoop_length (r d : Byte) (bs : List Byte) : (unreverseLoop r d bs).length = bs.length := by
  induction bs generalizing r d with
  | nil => rfl
  | cons b bs ih => simp [unreverseLoop, ih]

@[simp] theorem forwardPass_length (bs : List Byte) : (forwardPass bs).length = bs.length := by simp [forwardPass]
@[simp] theorem reversePass_length (bs : List Byte) : (reversePass bs).length = bs.length := by simp [reversePass]
@[simp] theorem unforwardPass_length (bs : List Byte) : (unforwardPass bs).length = bs.length := by simp [unforwardPass]
@[simp] theorem unreversePass_length (bs : List Byte) : (unreversePass bs).length = bs.length := by simp [unreversePass]

theorem repeatPass_length {f : List Byte → List Byte} (hf : ∀ bs, (f bs).length = bs.length) (k : Nat)
    (bs : List Byte) : (repeatPass f k bs).length = bs.length := by
  induction k generalizing bs with
  | zero => rfl
  | succ k ih => rw [repeatPass, ih, hf]

@[simp] theorem ofbChunk_length (bld : Build) (m : Block × Nat) (x : Nat) (bs : List Byte) :
    (ofbChunk bld m x bs).1.length = bs.length := by
  induction bs generalizing m x with
  | nil => rfl
  | cons b bs ih => simp [ofbChunk, ih]

theorem ofbChunks_length (bld : Build) (iv : Quad) (turns blockLen count : Nat) (bs : List Byte) (hb : 0 < blockLen)
    (h : bs.length ≤ turns) : (ofbChunks bld iv turns blockLen count bs).1.length = bs.length := by
  induction turns generalizing blockLen count bs with
  | zero => simp [List.length_eq_zero_iff.mp (Nat.le_zero.mp h), ofbChunks]
  | succ turns ih =>
    cases bs with
    | nil => rfl
    | cons b bs =>
      have hd : ((b :: bs).drop blockLen).length ≤ turns := by
        simp only [List.length_drop, List.length_cons] at *
        omega
      have hn : 0 < Config.nextChunk := by decide
      simp only [ofbChunks, List.length_append, ofbChunk_length, ih _ _ _ hn hd, List.length_take, List.length_drop]
      omega

/-- `aes_ofb` keeps the length of the payload. -/
@[simp] theorem aesOfb_length (bld : Build) (iv : Quad) (bs : List Byte) : (aesOfb bld iv bs).length = bs.length :=
  ofbChunks_length bld iv bs.length _ 0 bs (by decide) (le_refl _)

/-! ### What depends on the tables of a build alone -/

/-- The block encryptor of two builds with the same tables is the same. -/
theorem aesEncrypt_sameTables {x y : Build} (h : sameTables x y) : aesEncrypt x = aesEncrypt y := by
  obtain ⟨_, xs, xt, xk⟩ := x
  obtain ⟨_, ys, yt, yk⟩ := y
  obtain ⟨rfl, rfl, rfl⟩ := h
  rfl

/-- The shuffle of two builds with the same tables is the same. -/
theorem shuffle_sameTables {x y : Build} (h : sameTables x y) : shuffle x = shuffle y := by
  obtain ⟨_, xs, xt, xk⟩ := x
  obtain ⟨_, ys, yt, yk⟩ := y
  obtain ⟨rfl, rfl, rfl⟩ := h
  rfl

theorem ofbChunk_sameTables {x y : Build} (h : sameTables x y) (m : Block × Nat) (p : Nat) (bs : List Byte) :
    ofbChunk x m p bs = ofbChunk y m p bs := by
  induction bs generalizing m p with
  | nil => rfl
  | cons b bs ih => simp only [ofbChunk, encryptCounted, aesEncrypt_sameTables h, ih]

theorem ofbChunks_sameTables {x y : Build} (h : sameTables x y) (iv : Quad) (turns blockLen count : Nat)
    (bs : List Byte) : ofbChunks x iv turns blockLen count bs = ofbChunks y iv turns blockLen count bs := by
  induction turns generalizing blockLen count bs with
  | zero => rfl
  | succ turns ih =>
    cases bs with
    | nil => rfl
    | cons b bs => simp only [ofbChunks, ofbChunk_sameTables h, ih]

/-- `aes_ofb` of two builds with the same tables is the same. -/
theorem aesOfb_sameTables {x y : Build} (h : sameTables x y) : aesOfb x = aesOfb y := by
  funext iv bs
  exact congrArg Prod.fst (ofbChunks_sameTables h iv _ _ _ bs)

/-! ### Rotations and byte arithmetic -/

/-- A rotation count matters only modulo 8. -/
theorem rol8_mod (b : Byte) (c : Nat) : rol8 b c = rol8 b (c % 8) := by simp [rol8]

/-- A rotation count matters only modulo 8. -/
theorem ror8_mod (b : Byte) (c : Nat) : ror8 b c = ror8 b (c % 8) := by simp [ror8]

theorem ror8_rol8_small : ∀ (c : Fin 8) (b : Byte), ror8 (rol8 b c.val) c.val = b := by decide +kernel

theorem rol8_ror8_small : ∀ (c : Fin 8) (b : Byte), rol8 (ror8 b c.val) c.val = b := by decide +kernel

/-- Rotating right undoes rotating left by the same constant count. -/
theorem ror8_rol8_three (b : Byte) : ror8 (rol8 b 3) 3 = b := ror8_rol8_small 3 b
theorem rol8_ror8_three (b : Byte) : rol8 (ror8 b 3) 3 = b := rol8_ror8_small 3 b
theorem ror8_rol8_four (b : Byte) : ror8 (rol8 b 4) 4 = b := ror8_rol8_small 4 b
theorem rol8_ror8_four (b : Byte) : rol8 (ror8 b 4) 4 = b := rol8_ror8_small 4 b

/-- Rotating left undoes rotating right, for every count. -/
theorem rol8_ror8 (b : Byte) (c : Nat) : rol8 (ror8 b c) c = b := by
  rw [rol8_mod, ror8_mod]
  exact rol8_ror8_small ⟨c % 8, Nat.mod_lt _ (by decide)⟩ b

end Sys2Proof.Machine
end

