-- ==== Sys2Proof/Laws/Memory.lean ====
section
/-! SUPPORT. DATA: what a read after a write gives, that every write keeps the canonical form, and what a range read
returns. -/

namespace Sys2Proof.Machine

/-! ### Reading after writing -/

@[simp] theorem Memory.lookup_nil (k : Nat) : Memory.lookup [] k = none := rfl

theorem Memory.lookup_cons (k : Nat) (v : Byte) (m : Memory) (a : Nat) :
    Memory.lookup ((k, v) :: m) a = if k = a then some v else Memory.lookup m a := rfl

theorem Memory.lookup_append (m₁ m₂ : Memory) (k : Nat) :
    Memory.lookup (m₁ ++ m₂) k = (Memory.lookup m₁ k).or (Memory.lookup m₂ k) := by
  induction m₁ with
  | nil => simp
  | cons c m ih =>
    obtain ⟨a, v⟩ := c
    by_cases h : a = k <;> simp [Memory.lookup_cons, h, ih]

theorem Memory.lookup_filter (p : Nat → Bool) (m : Memory) (k : Nat) :
    Memory.lookup (m.filter fun c => p c.1) k = if p k then Memory.lookup m k else none := by
  induction m with
  | nil => simp
  | cons c m ih =>
    obtain ⟨a, v⟩ := c
    by_cases hp : p a <;> by_cases hk : a = k
    · simp [hk ▸ hp, hk, Memory.lookup_cons]
    · simp [hp, Memory.lookup_cons, hk, ih]
    · simp [hk ▸ hp, hk, ih]
    · simp [hp, Memory.lookup_cons, hk, ih]

theorem Memory.lookup_cells (a k : Nat) (bs : List Byte) :
    Memory.lookup (Memory.cells a bs) k = if a ≤ k then bs[k - a]? else none := by
  induction bs generalizing a with
  | nil => simp [Memory.cells]
  | cons b bs ih =>
    rw [Memory.cells, Memory.lookup_cons, ih]
    by_cases h : a = k
    · simp [h]
    · by_cases h' : a ≤ k
      · have : k - a = (k - (a + 1)) + 1 := by omega
        rw [this, if_neg h, if_pos (by omega), if_pos h', List.getElem?_cons_succ]
      · rw [if_neg h, if_neg (by omega), if_neg h']

/-- A byte read after a write of a range: inside the range the byte written, outside it the byte of before. -/
theorem Memory.lookup_writeRange (m : Memory) (a : Nat) (bs : List Byte) (k : Nat) :
    (m.writeRange a bs).lookup k = if a ≤ k ∧ k < a + bs.length then bs[k - a]? else m.lookup k := by
  rw [Memory.writeRange, Memory.lookup_append, Memory.lookup_append, Memory.lookup_cells,
    Memory.lookup_filter (fun n => decide (n < a)), Memory.lookup_filter (fun n => decide (a + bs.length ≤ n))]
  by_cases h₁ : a ≤ k
  · by_cases h₂ : k < a + bs.length
    · have h₃ : k - a < bs.length := by omega
      simp [h₁, h₂, h₃, show ¬ k < a by omega, show ¬ a + bs.length ≤ k by omega]
    · have h₃ : bs.length ≤ k - a := by omega
      simp [h₁, h₂, h₃, show ¬ k < a by omega, show a + bs.length ≤ k by omega]
  · simp [h₁, show k < a by omega, show ¬ a + bs.length ≤ k by omega]

theorem Memory.lookup_writeRange_inside (m : Memory) (a : Nat) (bs : List Byte) (i : Nat) (h : i < bs.length) :
    (m.writeRange a bs).lookup (a + i) = some bs[i] := by
  simp [Memory.lookup_writeRange, h]

theorem Memory.lookup_writeRange_outside (m : Memory) (a : Nat) (bs : List Byte) (k : Nat)
    (h : k < a ∨ a + bs.length ≤ k) : (m.writeRange a bs).lookup k = m.lookup k := by
  rw [Memory.lookup_writeRange, if_neg (by omega)]

theorem Memory.cells_key_range (a : Nat) (bs : List Byte) :
    ∀ c ∈ Memory.cells a bs, a ≤ c.1 ∧ c.1 < a + bs.length := by
  induction bs generalizing a with
  | nil => simp [Memory.cells]
  | cons b bs ih =>
    intro c hc
    rcases List.mem_cons.mp hc with rfl | hc
    · simp
    · have := ih (a + 1) c hc
      simp only [List.length_cons]
      omega

/-- Writing the same range twice is writing it once. -/
theorem Memory.writeRange_twice (m : Memory) (a : Nat) (bs : List Byte) :
    (m.writeRange a bs).writeRange a bs = m.writeRange a bs := by
  have hc := Memory.cells_key_range a bs
  simp only [Memory.writeRange, List.filter_append, List.filter_filter]
  have e₁ : (Memory.cells a bs).filter (fun c => decide (c.1 < a)) = [] :=
    List.filter_eq_nil_iff.mpr fun c h => by have := hc c h; simp; omega
  have e₂ : (Memory.cells a bs).filter (fun c => decide (a + bs.length ≤ c.1)) = [] :=
    List.filter_eq_nil_iff.mpr fun c h => by have := hc c h; simp; omega
  have e₃ : m.filter (fun c => decide (c.1 < a) && decide (a + bs.length ≤ c.1)) = [] :=
    List.filter_eq_nil_iff.mpr fun c _ => by simp; omega
  have e₄ : m.filter (fun c => decide (a + bs.length ≤ c.1) && decide (c.1 < a)) = [] :=
    List.filter_eq_nil_iff.mpr fun c _ => by simp; omega
  simp [e₁, e₂, e₃, e₄]

/-! ### The canonical form -/

theorem Memory.wf_iff (m : Memory) :
    m.wf = true ↔ m.Pairwise (fun c d => c.1 < d.1) ∧ ∀ c ∈ m, c.1 < Config.dataBytes := by
  induction m with
  | nil => simp [Memory.wf]
  | cons c m ih =>
    obtain ⟨k, v⟩ := c
    cases m with
    | nil => simp [Memory.wf]
    | cons d m =>
      obtain ⟨k', v'⟩ := d
      rw [Memory.wf, Bool.and_eq_true, decide_eq_true_eq, ih]
      constructor
      · rintro ⟨hk, hp, hb⟩
        refine ⟨List.pairwise_cons.mpr ⟨?_, hp⟩, ?_⟩
        · intro e he
          rcases List.mem_cons.mp he with rfl | he
          · exact hk
          · exact lt_trans hk ((List.pairwise_cons.mp hp).1 e he)
        · intro e he
          rcases List.mem_cons.mp he with rfl | he
          · exact lt_trans hk (hb (k', v') (by simp))
          · exact hb e he
      · rintro ⟨hp, hb⟩
        have hp' := List.pairwise_cons.mp hp
        exact ⟨hp'.1 (k', v') (by simp), hp'.2, fun e he => hb e (List.mem_cons_of_mem _ he)⟩

theorem Memory.wf_nil : Memory.wf [] = true := rfl

theorem Memory.cells_pairwise (a : Nat) (bs : List Byte) :
    (Memory.cells a bs).Pairwise (fun c d => c.1 < d.1) := by
  induction bs generalizing a with
  | nil => simp [Memory.cells]
  | cons b bs ih =>
    refine List.pairwise_cons.mpr ⟨fun c hc => ?_, ih (a + 1)⟩
    have := Memory.cells_key_range (a + 1) bs c hc
    show a < c.1
    omega

/-- A write of a range inside DATA keeps the canonical form. -/
theorem Memory.wf_writeRange (m : Memory) (a : Nat) (bs : List Byte) (hm : m.wf = true)
    (h : a + bs.length ≤ Config.dataBytes) : (m.writeRange a bs).wf = true := by
  obtain ⟨hp, hb⟩ := (Memory.wf_iff m).mp hm
  have hc := Memory.cells_key_range a bs
  refine (Memory.wf_iff _).mpr ⟨?_, ?_⟩
  · refine List.pairwise_append.mpr ⟨hp.filter _, List.pairwise_append.mpr ⟨Memory.cells_pairwise a bs, hp.filter _, ?_⟩, ?_⟩
    · intro c hcm d hd
      have := hc c hcm
      have := (List.mem_filter.mp hd).2
      simp only [decide_eq_true_eq] at this
      omega
    · intro c hcm d hd
      have h₁ := (List.mem_filter.mp hcm).2
      simp only [decide_eq_true_eq] at h₁
      rcases List.mem_append.mp hd with hd | hd
      · have := hc d hd
        omega
      · have := (List.mem_filter.mp hd).2
        simp only [decide_eq_true_eq] at this
        omega
  · intro c hcm
    rcases List.mem_append.mp hcm with hcm | hcm
    · exact hb c (List.mem_filter.mp hcm).1
    · rcases List.mem_append.mp hcm with hcm | hcm
      · have := hc c hcm
        omega
      · exact hb c (List.mem_filter.mp hcm).1

/-! ### Reading a range -/

theorem Memory.readRange_some (m : Memory) (a n d : Nat) (v : Byte) (h : m.lookup a = some v) :
    m.readRange a (n + 1) d = (v :: (m.readRange (a + 1) n d).1, (m.readRange (a + 1) n d).2) := by
  simp [Memory.readRange, h]

theorem Memory.readRange_none (m : Memory) (a n d : Nat) (h : m.lookup a = none) :
    m.readRange a (n + 1) d =
      (Config.freeByte d :: (m.readRange (a + 1) n (d + 1)).1, (m.readRange (a + 1) n (d + 1)).2) := by
  simp [Memory.readRange, h]

@[simp] theorem Memory.readRange_length (m : Memory) (a n d : Nat) : (m.readRange a n d).1.length = n := by
  induction n generalizing a d with
  | zero => rfl
  | succ n ih =>
    cases h : m.lookup a with
    | none => simp [Memory.readRange_none m a n d h, ih]
    | some v => simp [Memory.readRange_some m a n d v h, ih]

/-- A range read returns the value of every byte that holds one. -/
theorem Memory.readRange_value (m : Memory) (a n d i : Nat) (v : Byte) (hi : i < n) (h : m.lookup (a + i) = some v) :
    (m.readRange a n d).1[i]? = some v := by
  induction n generalizing a d i with
  | zero => omega
  | succ n ih =>
    have tail : ∀ (x : Byte) (d' : Nat), i ≠ 0 → (x :: (m.readRange (a + 1) n d').1)[i]? = some v := by
      intro x d' h0
      obtain ⟨j, rfl⟩ : ∃ j, i = j + 1 := ⟨i - 1, by omega⟩
      rw [List.getElem?_cons_succ]
      exact ih (a + 1) d' j (by omega) (by rw [← h]; congr 1; omega)
    cases hl : m.lookup a with
    | none =>
      rw [Memory.readRange_none m a n d hl]
      by_cases h0 : i = 0
      · subst h0
        rw [Nat.add_zero, hl] at h
        cases h
      · exact tail _ _ h0
    | some w =>
      rw [Memory.readRange_some m a n d w hl]
      by_cases h0 : i = 0
      · subst h0
        rw [Nat.add_zero, hl] at h
        simpa using h
      · exact tail _ _ h0

/-- A range read never takes a draw back. -/
theorem Memory.readRange_draws_le (m : Memory) (a n d : Nat) : d ≤ (m.readRange a n d).2 := by
  induction n generalizing a d with
  | zero => exact le_refl d
  | succ n ih =>
    cases h : m.lookup a with
    | none =>
      rw [Memory.readRange_none m a n d h]
      have := ih (a + 1) (d + 1)
      show d ≤ (m.readRange (a + 1) n (d + 1)).2
      omega
    | some v =>
      rw [Memory.readRange_some m a n d v h]
      exact ih (a + 1) d

/-- A range whose bytes all hold values takes no draw. -/
theorem Memory.readRange_no_draw (m : Memory) (a n d : Nat) (h : ∀ i, i < n → (m.lookup (a + i)).isSome) :
    (m.readRange a n d).2 = d := by
  induction n generalizing a d with
  | zero => rfl
  | succ n ih =>
    obtain ⟨v, hv⟩ := Option.isSome_iff_exists.mp (h 0 (by omega))
    rw [Nat.add_zero] at hv
    rw [Memory.readRange_some m a n d v hv]
    exact ih (a + 1) d fun i hi => by
      have := h (i + 1) (by omega)
      rwa [show a + (i + 1) = a + 1 + i by omega] at this

end Sys2Proof.Machine
end

