-- ==== Sys2Proof/Laws/State.lean ====
section
/-! SUPPORT. One lemma per field per update of the state: what each shared operation does to each field, and the bits of
STATUS after it. -/

namespace Sys2Proof.Machine

/-! ### STATUS -/

@[simp] theorem Status.succeeded_init (st : Status) : st.succeeded.init = st.init := rfl
@[simp] theorem Status.succeeded_errSeen (st : Status) : st.succeeded.errSeen = st.errSeen := rfl
@[simp] theorem Status.succeeded_err (st : Status) : st.succeeded.err = 0 := rfl
@[simp] theorem Status.failed_init (e : ErrorName) (st : Status) : (st.failed e).init = st.init := rfl
@[simp] theorem Status.failed_errSeen (e : ErrorName) (st : Status) : (st.failed e).errSeen = true := rfl
@[simp] theorem Status.failed_err (e : ErrorName) (st : Status) : (st.failed e).err = e.code := rfl
@[simp] theorem Status.loaded_init (st : Status) : st.loaded.init = true := rfl
@[simp] theorem Status.loaded_errSeen (st : Status) : st.loaded.errSeen = st.errSeen := rfl
@[simp] theorem Status.loaded_err (st : Status) : st.loaded.err = st.err := rfl
@[simp] theorem ErrorName.code_illegal : ErrorName.illegal.code = 1 := rfl
@[simp] theorem ErrorName.code_notInit : ErrorName.notInit.code = 2 := rfl
@[simp] theorem ErrorName.code_shortHs : ErrorName.shortHs.code = 3 := rfl

/-! ### `raise` -/

@[simp] theorem raise_build (e : ErrorName) (s : State) : (raise e s).build = s.build := rfl
@[simp] theorem raise_status (e : ErrorName) (s : State) : (raise e s).status = s.status.failed e := rfl
@[simp] theorem raise_len (e : ErrorName) (s : State) : (raise e s).len = s.len := rfl
@[simp] theorem raise_hdr (e : ErrorName) (s : State) : (raise e s).hdr = s.hdr := rfl
@[simp] theorem raise_sendIv (e : ErrorName) (s : State) : (raise e s).sendIv = s.sendIv := rfl
@[simp] theorem raise_recvIv (e : ErrorName) (s : State) : (raise e s).recvIv = s.recvIv := rfl
@[simp] theorem raise_data (e : ErrorName) (s : State) : (raise e s).data = s.data := rfl
@[simp] theorem raise_draws (e : ErrorName) (s : State) : (raise e s).draws = s.draws := rfl
@[simp] theorem raise_pending (e : ErrorName) (s : State) : (raise e s).pending = s.pending := rfl
@[simp] theorem raise_results (e : ErrorName) (s : State) : (raise e s).results = s.results := rfl

/-! ### `succeed` -/

@[simp] theorem succeed_build (s : State) : (succeed s).build = s.build := rfl
@[simp] theorem succeed_status (s : State) : (succeed s).status = s.status.succeeded := rfl
@[simp] theorem succeed_len (s : State) : (succeed s).len = s.len := rfl
@[simp] theorem succeed_hdr (s : State) : (succeed s).hdr = s.hdr := rfl
@[simp] theorem succeed_sendIv (s : State) : (succeed s).sendIv = s.sendIv := rfl
@[simp] theorem succeed_recvIv (s : State) : (succeed s).recvIv = s.recvIv := rfl
@[simp] theorem succeed_data (s : State) : (succeed s).data = s.data := rfl
@[simp] theorem succeed_draws (s : State) : (succeed s).draws = s.draws := rfl
@[simp] theorem succeed_pending (s : State) : (succeed s).pending = s.pending := rfl
@[simp] theorem succeed_results (s : State) : (succeed s).results = s.results := rfl

/-! ### `readData` -/

@[simp] theorem readData_build (a n : Nat) (s : State) : ((readData a n s).2).build = s.build := rfl
@[simp] theorem readData_status (a n : Nat) (s : State) : ((readData a n s).2).status = s.status := rfl
@[simp] theorem readData_len (a n : Nat) (s : State) : ((readData a n s).2).len = s.len := rfl
@[simp] theorem readData_hdr (a n : Nat) (s : State) : ((readData a n s).2).hdr = s.hdr := rfl
@[simp] theorem readData_sendIv (a n : Nat) (s : State) : ((readData a n s).2).sendIv = s.sendIv := rfl
@[simp] theorem readData_recvIv (a n : Nat) (s : State) : ((readData a n s).2).recvIv = s.recvIv := rfl
@[simp] theorem readData_data (a n : Nat) (s : State) : ((readData a n s).2).data = s.data := rfl
@[simp] theorem readData_draws (a n : Nat) (s : State) : ((readData a n s).2).draws = (s.data.readRange a n s.draws).2 := rfl
@[simp] theorem readData_pending (a n : Nat) (s : State) : ((readData a n s).2).pending = s.pending := rfl
@[simp] theorem readData_results (a n : Nat) (s : State) : ((readData a n s).2).results = s.results := rfl

/-! ### `writeData` -/

@[simp] theorem writeData_build (a : Nat) (bs : List Byte) (s : State) : (writeData a bs s).build = s.build := rfl
@[simp] theorem writeData_status (a : Nat) (bs : List Byte) (s : State) : (writeData a bs s).status = s.status := rfl
@[simp] theorem writeData_len (a : Nat) (bs : List Byte) (s : State) : (writeData a bs s).len = s.len := rfl
@[simp] theorem writeData_hdr (a : Nat) (bs : List Byte) (s : State) : (writeData a bs s).hdr = s.hdr := rfl
@[simp] theorem writeData_sendIv (a : Nat) (bs : List Byte) (s : State) : (writeData a bs s).sendIv = s.sendIv := rfl
@[simp] theorem writeData_recvIv (a : Nat) (bs : List Byte) (s : State) : (writeData a bs s).recvIv = s.recvIv := rfl
@[simp] theorem writeData_data (a : Nat) (bs : List Byte) (s : State) : (writeData a bs s).data = s.data.writeRange a bs := rfl
@[simp] theorem writeData_draws (a : Nat) (bs : List Byte) (s : State) : (writeData a bs s).draws = s.draws := rfl
@[simp] theorem writeData_pending (a : Nat) (bs : List Byte) (s : State) : (writeData a bs s).pending = s.pending := rfl
@[simp] theorem writeData_results (a : Nat) (bs : List Byte) (s : State) : (writeData a bs s).results = s.results := rfl

/-! ### `mapData` -/

@[simp] theorem mapData_build (a n : Nat) (f : List Byte → List Byte) (s : State) : (mapData a n f s).build = s.build := rfl
@[simp] theorem mapData_status (a n : Nat) (f : List Byte → List Byte) (s : State) : (mapData a n f s).status = s.status := rfl
@[simp] theorem mapData_len (a n : Nat) (f : List Byte → List Byte) (s : State) : (mapData a n f s).len = s.len := rfl
@[simp] theorem mapData_hdr (a n : Nat) (f : List Byte → List Byte) (s : State) : (mapData a n f s).hdr = s.hdr := rfl
@[simp] theorem mapData_sendIv (a n : Nat) (f : List Byte → List Byte) (s : State) : (mapData a n f s).sendIv = s.sendIv := rfl
@[simp] theorem mapData_recvIv (a n : Nat) (f : List Byte → List Byte) (s : State) : (mapData a n f s).recvIv = s.recvIv := rfl
@[simp] theorem mapData_data (a n : Nat) (f : List Byte → List Byte) (s : State) : (mapData a n f s).data = s.data.writeRange a (f (readData a n s).1) := rfl
@[simp] theorem mapData_draws (a n : Nat) (f : List Byte → List Byte) (s : State) : (mapData a n f s).draws = (s.data.readRange a n s.draws).2 := rfl
@[simp] theorem mapData_pending (a n : Nat) (f : List Byte → List Byte) (s : State) : (mapData a n f s).pending = s.pending := rfl
@[simp] theorem mapData_results (a n : Nat) (f : List Byte → List Byte) (s : State) : (mapData a n f s).results = s.results := rfl

/-! ### `mapPayload` -/

@[simp] theorem mapPayload_build (f : List Byte → List Byte) (s : State) : (mapPayload f s).build = s.build := rfl
@[simp] theorem mapPayload_status (f : List Byte → List Byte) (s : State) : (mapPayload f s).status = s.status := rfl
@[simp] theorem mapPayload_len (f : List Byte → List Byte) (s : State) : (mapPayload f s).len = s.len := rfl
@[simp] theorem mapPayload_hdr (f : List Byte → List Byte) (s : State) : (mapPayload f s).hdr = s.hdr := rfl
@[simp] theorem mapPayload_sendIv (f : List Byte → List Byte) (s : State) : (mapPayload f s).sendIv = s.sendIv := rfl
@[simp] theorem mapPayload_recvIv (f : List Byte → List Byte) (s : State) : (mapPayload f s).recvIv = s.recvIv := rfl
@[simp] theorem mapPayload_data (f : List Byte → List Byte) (s : State) : (mapPayload f s).data = s.data.writeRange 0 (f s.payload) := rfl
@[simp] theorem mapPayload_draws (f : List Byte → List Byte) (s : State) : (mapPayload f s).draws = (s.data.readRange 0 s.payloadLen s.draws).2 := rfl
@[simp] theorem mapPayload_pending (f : List Byte → List Byte) (s : State) : (mapPayload f s).pending = s.pending := rfl
@[simp] theorem mapPayload_results (f : List Byte → List Byte) (s : State) : (mapPayload f s).results = s.results := rfl

/-! ### `mapBlock` -/

@[simp] theorem mapBlock_build (f : Block → Block) (s : State) : (mapBlock f s).build = s.build := rfl
@[simp] theorem mapBlock_status (f : Block → Block) (s : State) : (mapBlock f s).status = s.status := rfl
@[simp] theorem mapBlock_len (f : Block → Block) (s : State) : (mapBlock f s).len = s.len := rfl
@[simp] theorem mapBlock_hdr (f : Block → Block) (s : State) : (mapBlock f s).hdr = s.hdr := rfl
@[simp] theorem mapBlock_sendIv (f : Block → Block) (s : State) : (mapBlock f s).sendIv = s.sendIv := rfl
@[simp] theorem mapBlock_recvIv (f : Block → Block) (s : State) : (mapBlock f s).recvIv = s.recvIv := rfl
@[simp] theorem mapBlock_data (f : Block → Block) (s : State) : (mapBlock f s).data = s.data.writeRange 0 (f (Block.ofBytes (readData 0 16 s).1)).toList := rfl
@[simp] theorem mapBlock_draws (f : Block → Block) (s : State) : (mapBlock f s).draws = (s.data.readRange 0 16 s.draws).2 := rfl
@[simp] theorem mapBlock_pending (f : Block → Block) (s : State) : (mapBlock f s).pending = s.pending := rfl
@[simp] theorem mapBlock_results (f : Block → Block) (s : State) : (mapBlock f s).results = s.results := rfl

/-! ### `drawByte` -/

@[simp] theorem drawByte_build (s : State) : ((drawByte s).2).build = s.build := rfl
@[simp] theorem drawByte_status (s : State) : ((drawByte s).2).status = s.status := rfl
@[simp] theorem drawByte_len (s : State) : ((drawByte s).2).len = s.len := rfl
@[simp] theorem drawByte_hdr (s : State) : ((drawByte s).2).hdr = s.hdr := rfl
@[simp] theorem drawByte_sendIv (s : State) : ((drawByte s).2).sendIv = s.sendIv := rfl
@[simp] theorem drawByte_recvIv (s : State) : ((drawByte s).2).recvIv = s.recvIv := rfl
@[simp] theorem drawByte_data (s : State) : ((drawByte s).2).data = s.data := rfl
@[simp] theorem drawByte_draws (s : State) : ((drawByte s).2).draws = s.draws + 1 := rfl
@[simp] theorem drawByte_pending (s : State) : ((drawByte s).2).pending = s.pending := rfl
@[simp] theorem drawByte_results (s : State) : ((drawByte s).2).results = s.results := rfl

/-! ### `setIv`, sending -/

@[simp] theorem setIv_send_build (s : State) (q : Quad) : (s.setIv q .send).build = s.build := rfl
@[simp] theorem setIv_send_status (s : State) (q : Quad) : (s.setIv q .send).status = s.status := rfl
@[simp] theorem setIv_send_len (s : State) (q : Quad) : (s.setIv q .send).len = s.len := rfl
@[simp] theorem setIv_send_hdr (s : State) (q : Quad) : (s.setIv q .send).hdr = s.hdr := rfl
@[simp] theorem setIv_send_sendIv (s : State) (q : Quad) : (s.setIv q .send).sendIv = q := rfl
@[simp] theorem setIv_send_recvIv (s : State) (q : Quad) : (s.setIv q .send).recvIv = s.recvIv := rfl
@[simp] theorem setIv_send_data (s : State) (q : Quad) : (s.setIv q .send).data = s.data := rfl
@[simp] theorem setIv_send_draws (s : State) (q : Quad) : (s.setIv q .send).draws = s.draws := rfl
@[simp] theorem setIv_send_pending (s : State) (q : Quad) : (s.setIv q .send).pending = s.pending := rfl
@[simp] theorem setIv_send_results (s : State) (q : Quad) : (s.setIv q .send).results = s.results := rfl

/-! ### `setIv`, receiving -/

@[simp] theorem setIv_recv_build (s : State) (q : Quad) : (s.setIv q .recv).build = s.build := rfl
@[simp] theorem setIv_recv_status (s : State) (q : Quad) : (s.setIv q .recv).status = s.status := rfl
@[simp] theorem setIv_recv_len (s : State) (q : Quad) : (s.setIv q .recv).len = s.len := rfl
@[simp] theorem setIv_recv_hdr (s : State) (q : Quad) : (s.setIv q .recv).hdr = s.hdr := rfl
@[simp] theorem setIv_recv_sendIv (s : State) (q : Quad) : (s.setIv q .recv).sendIv = s.sendIv := rfl
@[simp] theorem setIv_recv_recvIv (s : State) (q : Quad) : (s.setIv q .recv).recvIv = q := rfl
@[simp] theorem setIv_recv_data (s : State) (q : Quad) : (s.setIv q .recv).data = s.data := rfl
@[simp] theorem setIv_recv_draws (s : State) (q : Quad) : (s.setIv q .recv).draws = s.draws := rfl
@[simp] theorem setIv_recv_pending (s : State) (q : Quad) : (s.setIv q .recv).pending = s.pending := rfl
@[simp] theorem setIv_recv_results (s : State) (q : Quad) : (s.setIv q .recv).results = s.results := rfl

/-! ### `applyReset` -/

@[simp] theorem applyReset_build (s : State) : (applyReset s).build = s.build := rfl
@[simp] theorem applyReset_status (s : State) : (applyReset s).status = ⟨false, false, 0⟩ := rfl
@[simp] theorem applyReset_len (s : State) : (applyReset s).len = 0 := rfl
@[simp] theorem applyReset_hdr (s : State) : (applyReset s).hdr = ⟨0, 0, 0, 0⟩ := rfl
@[simp] theorem applyReset_sendIv (s : State) : (applyReset s).sendIv = resetIv := rfl
@[simp] theorem applyReset_recvIv (s : State) : (applyReset s).recvIv = resetIv := rfl
@[simp] theorem applyReset_data (s : State) : (applyReset s).data = [] := rfl
@[simp] theorem applyReset_draws (s : State) : (applyReset s).draws = s.draws := rfl
@[simp] theorem applyReset_pending (s : State) : (applyReset s).pending = s.pending := rfl
@[simp] theorem applyReset_results (s : State) : (applyReset s).results = s.results := rfl

/-! ### Reading an IV back -/

@[simp] theorem iv_send (s : State) : s.iv .send = s.sendIv := rfl
@[simp] theorem iv_recv (s : State) : s.iv .recv = s.recvIv := rfl

end Sys2Proof.Machine
end

