-- ==== Sys2Proof/Laws/Ops.lean ====
section
/-! SUPPORT. One lemma for each shared operation that says once what it can do: in-place work on DATA, the check for a
session, the shuffle and the OFB stage, the host port and one host event. -/

namespace Sys2Proof.Machine

/-! ### Reading and mapping DATA -/

@[simp] theorem readData_length (a n : Nat) (s : State) : (readData a n s).1.length = n :=
  Memory.readRange_length _ _ _ _

@[simp] theorem payload_length (s : State) : s.payload.length = s.len.toNat := readData_length _ _ _

/-- What a range read returns is what DATA holds, wherever it holds a value. -/
theorem readData_mayRead (a n : Nat) (s : State) : s.mayRead a (readData a n s).1 := by
  intro i h v hv
  rw [readData_length] at h
  have := Memory.readRange_value s.data a n s.draws i v h hv
  exact (List.getElem_eq_iff _).mpr this

theorem payload_mayRead (s : State) : s.mayRead 0 s.payload := readData_mayRead _ _ _

/-- A range read of bytes that all hold values returns them. -/
theorem readData_eq_of_holds (a : Nat) (bs : List Byte) (s : State) (h : s.holds a bs) :
    (readData a bs.length s).1 = bs := by
  refine List.ext_getElem (readData_length _ _ _) fun i h₁ h₂ => ?_
  exact readData_mayRead a bs.length s i h₁ _ (h i h₂)

/-- After a write of a range DATA holds what was written. -/
theorem writeData_holds (a : Nat) (bs : List Byte) (s : State) : (writeData a bs s).holds a bs :=
  fun i h => Memory.lookup_writeRange_inside s.data a bs i h

/-- What `mapData` makes of a byte of DATA: inside the range the byte computed, outside it the byte of before. -/
theorem mapData_lookup (a n : Nat) (f : List Byte → List Byte) (s : State) (k : Nat) :
    (mapData a n f s).data.lookup k =
      if a ≤ k ∧ k < a + (f (readData a n s).1).length then (f (readData a n s).1)[k - a]? else s.data.lookup k := by
  rw [mapData_data, Memory.lookup_writeRange]

/-- The payload after `mapPayload`: DATA holds the bytes computed of the bytes read. -/
theorem mapPayload_holds (f : List Byte → List Byte) (s : State) : (mapPayload f s).holds 0 (f s.payload) :=
  fun i h => Memory.lookup_writeRange_inside s.data 0 _ i h

/-- `mapPayload` with a function that keeps the length leaves the bytes from LEN up alone. -/
theorem mapPayload_sameDataFrom (f : List Byte → List Byte) (hf : ∀ bs, (f bs).length = bs.length) (s : State) :
    sameDataFrom s.len.toNat s (mapPayload f s) := by
  intro a ha
  rw [mapPayload_data, Memory.lookup_writeRange_outside]
  rw [hf, payload_length]
  omega

/-- The payload of a state that holds a list of LEN bytes is that list. -/
theorem payload_eq_of_holds (s : State) (bs : List Byte) (hl : bs.length = s.len.toNat) (h : s.holds 0 bs) :
    s.payload = bs := by
  have := readData_eq_of_holds 0 bs s h
  rwa [hl] at this

/-- A second in-place pass over the payload reads what the first one wrote. -/
theorem payload_mapPayload (f : List Byte → List Byte) (hf : ∀ bs, (f bs).length = bs.length) (s : State) :
    (mapPayload f s).payload = f s.payload :=
  payload_eq_of_holds _ _ (by simp [hf]) (mapPayload_holds f s)

/-- In-place work keeps the canonical form of DATA. -/
theorem mapPayload_wf (f : List Byte → List Byte) (hf : ∀ bs, (f bs).length = bs.length) (s : State)
    (h : s.data.wf = true) : (mapPayload f s).data.wf = true := by
  refine Memory.wf_writeRange _ _ _ h ?_
  have : s.len.toNat < 2 ^ 16 := s.len.isLt
  rw [hf, readData_length]
  show 0 + s.len.toNat ≤ 65536
  omega

/-- Encrypting the block in place keeps the canonical form of DATA. -/
theorem mapBlock_wf (f : Block → Block) (s : State) (h : s.data.wf = true) : (mapBlock f s).data.wf = true :=
  Memory.wf_writeRange _ _ _ h (by simp [Config.dataBytes])

/-- The bytes of a block, listed, are the list it was made of. -/
theorem Block.toList_ofBytes (bs : List Byte) (h : bs.length = 16) : (Block.ofBytes bs).toList = bs := by
  match bs, h with
  | [_, _, _, _, _, _, _, _, _, _, _, _, _, _, _, _], _ => rfl

/-! ### The check for a session -/

/-- Everything `requireInit` can answer. -/
theorem requireInit_next {effect : State → State} {s t : State} (h : requireInit effect s = .next t) :
    (s.status.init = true ∧ t = succeed (effect s)) ∨ (s.status.init = false ∧ t = raise .notInit s) := by
  unfold requireInit at h
  split at h <;> simp_all

theorem requireInit_of_init {effect : State → State} {s : State} (h : s.status.init = true) :
    requireInit effect s = .next (succeed (effect s)) := if_pos h

theorem requireInit_of_not_init {effect : State → State} {s : State} (h : s.status.init = false) :
    requireInit effect s = .next (raise .notInit s) := if_neg (by simp [h])

/-! ### The shuffle and the OFB stage -/

@[simp] theorem shuffleIv_send (s : State) :
    shuffleIv .send s = { s with sendIv := shuffle s.build s.sendIv } := rfl

@[simp] theorem shuffleIv_recv (s : State) :
    shuffleIv .recv s = { s with recvIv := shuffle s.build s.recvIv } := rfl

/-- The OFB stage of the send direction: the payload XORed, then SEND_IV shuffled. -/
theorem ofbPayload_send (s : State) :
    ofbPayload .send s =
      { mapPayload (aesOfb s.build s.sendIv) s with sendIv := shuffle s.build s.sendIv } := rfl

/-- The OFB stage of the receive direction: the payload XORed, then RECV_IV shuffled. -/
theorem ofbPayload_recv (s : State) :
    ofbPayload .recv s =
      { mapPayload (aesOfb s.build s.recvIv) s with recvIv := shuffle s.build s.recvIv } := rfl

/-! ### INIT -/

/-- The fields INIT leaves alone. -/
theorem startSession_frame (s : State) :
    (startSession s).build = s.build ∧ (startSession s).len = s.len ∧ (startSession s).hdr = s.hdr ∧
      (startSession s).data = s.data ∧ (startSession s).pending = s.pending ∧
      (startSession s).results = s.results ∧ (startSession s).status = s.status.loaded :=
  ⟨rfl, rfl, rfl, rfl, rfl, rfl, rfl⟩

/-! ### The host port and host events -/

/-- A host read changes at most the count of draws. -/
theorem portRead_state (a : Addr) (s : State) :
    (portRead a s).2 = s ∨ (portRead a s).2 = { s with draws := s.draws + 1 } := by
  unfold portRead readIvByte readDataByte drawByte
  repeat' split
  all_goals first | exact Or.inl rfl | exact Or.inr rfl

/-- Everything a host write to another address than CMD can do. -/
theorem portWrite_cases (a : Addr) (v : Byte) (s : State) :
    portWrite a v s = s ∨ (∃ l, portWrite a v s = { s with len := l }) ∨ (∃ q, portWrite a v s = { s with hdr := q }) ∨
      (∃ i, i < Config.dataBytes ∧ portWrite a v s = writeData i [v] s) := by
  have hdata : ∀ i, locate a = .data i → i < Config.dataBytes := by
    intro i hi
    have : a.toNat < 2 ^ 17 := a.isLt
    unfold locate at hi
    simp only at hi
    split at hi; · cases hi
    split at hi; · cases hi
    split at hi; · cases hi
    split at hi; · cases hi
    split at hi; · cases hi
    split at hi; · cases hi
    split at hi; · cases hi
    split at hi; · cases hi
    injection hi with hi
    subst hi
    simp only [Config.dataBytes]
    omega
  unfold portWrite
  split
  all_goals first
    | exact Or.inl rfl
    | exact Or.inr (Or.inl ⟨_, rfl⟩)
    | exact Or.inr (Or.inr (Or.inl ⟨_, rfl⟩))
    | exact Or.inr (Or.inr (Or.inr ⟨_, hdata _ ‹_›, rfl⟩))

/-- CMD is at address 0 and nowhere else. -/
theorem locate_eq_cmd (a : Addr) : locate a = .cmd ↔ a = 0 := by
  constructor
  · intro h
    by_contra ha
    have : a.toNat ≠ 0 := fun h0 => ha (BitVec.eq_of_toNat_eq (by simpa using h0))
    unfold locate at h
    simp only [this, if_false] at h
    repeat' split at h
    all_goals cases h
  · rintro rfl
    rfl

/-- Everything a step can do: with no event nothing; an access that reads; a write that runs a command; a write to
another address; a reset. -/
theorem step_cases {s t : State} (h : step s = .next t) :
    (s.pending = [] ∧ t = s) ∨
    ∃ e rest, s.pending = e :: rest ∧
      ((∃ a, e = .access (.read a) ∧
          t = { (portRead a { s with pending := rest }).2 with
                results := s.results ++ [(portRead a { s with pending := rest }).1] }) ∨
       (∃ op, e = .access (.write 0 op) ∧ runCommand op { s with pending := rest } = .next t) ∨
       (∃ a v, e = .access (.write a v) ∧ a ≠ 0 ∧ t = portWrite a v { s with pending := rest }) ∨
       (e = .reset ∧ t = applyReset { s with pending := rest })) := by
  unfold step takeEvent at h
  split at h
  · next hp =>
    injection h with h
    exact Or.inl ⟨hp, h.symm⟩
  · next e rest hp =>
    refine Or.inr ⟨e, rest, hp, ?_⟩
    cases e with
    | reset =>
      injection h with h
      exact Or.inr (Or.inr (Or.inr ⟨rfl, h.symm⟩))
    | access x =>
      cases x with
      | read a =>
        have hr : (portRead a { s with pending := rest }).2.results = s.results := by
          rcases portRead_state a { s with pending := rest } with h' | h' <;> rw [h']
        injection h with h
        refine Or.inl ⟨a, rfl, ?_⟩
        rw [← h, hr]
      | write a v =>
        simp only [hostEvent, hostAccess] at h
        split at h
        · next hl =>
          have := (locate_eq_cmd a).mp hl
          subst this
          exact Or.inr (Or.inl ⟨v, rfl, h⟩)
        · next hl =>
          injection h with h
          exact Or.inr (Or.inr (Or.inl ⟨a, v, rfl, fun h0 => hl ((locate_eq_cmd a).mpr h0), h.symm⟩))

/-- Everything a byte written to CMD can do: run its command, or raise E_ILLEGAL. -/
theorem runCommand_cases {op : Byte} {s t : State} (h : runCommand op s = .next t) :
    (∃ i, decode op = .command i ∧ exec i s = .next t) ∨ t = raise .illegal s := by
  unfold runCommand at h
  split at h
  · next i hi => exact Or.inl ⟨i, hi, h⟩
  · injection h with h
    exact Or.inr h.symm

end Sys2Proof.Machine
end

