-- ==== Sys2Proof/Laws/PerInstr.lean ====
section
/-! SUPPORT. A statement about every command as syntax, one lemma per constructor: its opcode decodes to it, its upper
half names its group (30_encoding.md R67, R68), and the script operation `cmd` writes that opcode to CMD (R74). -/

namespace Sys2Proof.Laws.Encoding

/-- What the encoding of a command satisfies. -/
def Statement (i : Instr) : Prop :=
  i.wellFormed = true ∧ decode (encode i) = .command i ∧ (encode i).extractLsb' 4 4 = i.group.nibble ∧
  (HostOp.cmd i).expand = [.write 0x00000 (encode i)]

theorem init : Statement .init := ⟨rfl, by decide, by decide, by decide⟩
theorem enc : Statement .enc := ⟨rfl, by decide, by decide, by decide⟩
theorem dec : Statement .dec := ⟨rfl, by decide, by decide, by decide⟩
theorem mkhdr : Statement .mkhdr := ⟨rfl, by decide, by decide, by decide⟩
theorem chklen : Statement .chklen := ⟨rfl, by decide, by decide, by decide⟩
theorem aesblk : Statement .aesblk := ⟨rfl, by decide, by decide, by decide⟩
theorem menc : Statement .menc := ⟨rfl, by decide, by decide, by decide⟩
theorem mdec : Statement .mdec := ⟨rfl, by decide, by decide, by decide⟩
theorem shufS : Statement .shufS := ⟨rfl, by decide, by decide, by decide⟩
theorem shufR : Statement .shufR := ⟨rfl, by decide, by decide, by decide⟩
theorem ofbS : Statement .ofbS := ⟨rfl, by decide, by decide, by decide⟩
theorem ofbR : Statement .ofbR := ⟨rfl, by decide, by decide, by decide⟩

end Sys2Proof.Laws.Encoding
end

