-- ==== Sys2Proof/Laws/Port.lean ====
section
/-! SUPPORT. The address map as a function of what an address names: which address that is, the byte the host finds
there, whether a write stores there; and the byte registers under a write of one byte. -/

namespace Sys2Proof.Machine

/-- The address of what a host address names; the reserved addresses have no place of their own. -/
def PortLoc.address : PortLoc → Option Nat
  | .cmd      => some 0
  | .status   => some 1
  | .lenLo    => some 2
  | .lenHi    => some 3
  | .hdr i    => some (4 + i.val)
  | .sendIv i => some (8 + i.val)
  | .recvIv i => some (12 + i.val)
  | .reserved => none
  | .data i   => some (0x10000 + i)

/-- `locate` keeps the address, but for the reserved ones. -/
theorem address_locate (a : Addr) :
    (locate a).address = if 16 ≤ a.toNat ∧ a.toNat < 0x10000 then none else some a.toNat := by
  have hl : a.toNat < 2 ^ 17 := a.isLt
  unfold locate
  simp only
  split
  · rename_i h; simp [h, PortLoc.address]
  split
  · rename_i h; simp [h, PortLoc.address]
  split
  · rename_i h; simp [h, PortLoc.address]
  split
  · rename_i h; simp [h, PortLoc.address]
  split
  · simp only [PortLoc.address]; rw [if_neg (by omega)]; exact congrArg some (by omega)
  split
  · simp only [PortLoc.address]; rw [if_neg (by omega)]; exact congrArg some (by omega)
  split
  · simp only [PortLoc.address]; rw [if_neg (by omega)]; exact congrArg some (by omega)
  split
  · simp only [PortLoc.address]; rw [if_pos (by omega)]
  · simp only [PortLoc.address]; rw [if_neg (by omega)]; exact congrArg some (by omega)

/-- Two addresses that name the same thing are equal, unless that is a reserved address. -/
theorem eq_of_locate_eq {a b : Addr} (h : locate a = locate b) (hr : locate a ≠ .reserved) : a = b := by
  have ha := address_locate a
  have hb := address_locate b
  rw [← h, ha] at hb
  apply BitVec.eq_of_toNat_eq
  split at hb
  · rename_i h1
    rw [if_pos h1] at ha
    cases hc : locate a <;> rw [hc] at ha <;> simp [PortLoc.address] at ha
    exact absurd hc hr
  · split at hb
    · cases hb
    · injection hb

/-- The byte the host finds at what an address names, where there is one. -/
def State.byteAt (s : State) : PortLoc → Option Byte
  | .cmd      => some 0
  | .status   => some s.statusByte
  | .lenLo    => some (loByte s.len)
  | .lenHi    => some (hiByte s.len)
  | .hdr i    => some (s.hdr.get i)
  | .sendIv i => if s.status.init then some (s.sendIv.get i) else none
  | .recvIv i => if s.status.init then some (s.recvIv.get i) else none
  | .reserved => some 0
  | .data i   => s.data.lookup i

/-- The byte at an address by the table of 20_memory.md R48 is the byte at what the address names. -/
theorem hostByte_eq_byteAt (s : State) (a : Addr) : s.hostByte a = s.byteAt (locate a) := by
  have hl : a.toNat < 2 ^ 17 := a.isLt
  unfold locate State.hostByte
  simp only
  split
  · rfl
  split
  · rfl
  split
  · rfl
  split
  · rfl
  by_cases h4 : a.toNat ≤ 7
  · rw [if_pos h4, dif_pos (by omega)]
    have : a.toNat = 4 ∨ a.toNat = 5 ∨ a.toNat = 6 ∨ a.toNat = 7 := by omega
    rcases this with h | h | h | h <;> simp [h] <;> rfl
  rw [if_neg h4, dif_neg (by omega)]
  by_cases h5 : a.toNat ≤ 11
  · rw [if_pos h5, dif_pos (by omega)]
    have : a.toNat = 8 ∨ a.toNat = 9 ∨ a.toNat = 10 ∨ a.toNat = 11 := by omega
    rcases this with h | h | h | h <;> simp [h] <;> rfl
  rw [if_neg h5, dif_neg (by omega)]
  by_cases h6 : a.toNat ≤ 15
  · rw [if_pos h6, dif_pos (by omega)]
    have : a.toNat = 12 ∨ a.toNat = 13 ∨ a.toNat = 14 ∨ a.toNat = 15 := by omega
    rcases this with h | h | h | h <;> simp [h] <;> rfl
  rw [if_neg h6, dif_neg (by omega)]
  by_cases h7 : a.toNat ≤ 65535
  · rw [if_pos h7, if_pos (by omega)]; rfl
  · rw [if_neg h7, if_neg (by omega)]; rfl

/-- A read finds the byte at what the address names, or draws one. -/
theorem portRead_eq (a : Addr) (s : State) :
    portRead a s = match s.byteAt (locate a) with
      | some v => (v, s)
      | none   => drawByte s := by
  unfold portRead State.byteAt
  cases locate a <;> simp only [readIvByte, readDataByte, State.iv]
  all_goals first | rfl | (split <;> simp_all)

/-- A host write stores a byte at what the address names. -/
def PortLoc.stores : PortLoc → Bool
  | .lenLo | .lenHi | .hdr _ | .data _                 => true
  | .cmd | .status | .sendIv _ | .recvIv _ | .reserved => false

/-- A host write stores at LEN, HDR and DATA. -/
theorem hostWritable_locate (a : Addr) :
    hostWritable a = (locate a).stores := by
  have hl : a.toNat < 2 ^ 17 := a.isLt
  unfold locate hostWritable
  simp only
  split
  · rename_i h; simp [h, PortLoc.stores]
  split
  · rename_i h; simp [h, PortLoc.stores]
  split
  · rename_i h; simp [h, PortLoc.stores]
  split
  · rename_i h; simp [h, PortLoc.stores]
  split
  · simp [PortLoc.stores]; omega
  split
  · simp [PortLoc.stores]; omega
  split
  · simp [PortLoc.stores]; omega
  split
  · simp [PortLoc.stores]; omega
  · simp [PortLoc.stores]; omega

/-- An element of a four-byte register after one element was replaced. -/
theorem quad_get_set (q : Quad) (v : Byte) (i j : Fin 4) :
    (q.set v i).get j = if j = i then v else q.get j := by
  match i, j with
  | 0, 0 | 0, 1 | 0, 2 | 0, 3 | 1, 0 | 1, 1 | 1, 2 | 1, 3 | 2, 0 | 2, 1 | 2, 2 | 2, 3 | 3, 0 | 3, 1 | 3, 2 | 3, 3 => rfl

/-- The low byte of two bytes put together is the second. -/
@[simp] theorem loByte_append (h l : Byte) : loByte (h ++ l) = l := by
  ext i hi
  have e := BitVec.getLsbD_append (x := h) (y := l) (i := i)
  rw [if_pos hi] at e
  simpa [loByte, hi, ← BitVec.getLsbD_eq_getElem] using e

/-- The high byte of two bytes put together is the first. -/
@[simp] theorem hiByte_append (h l : Byte) : hiByte (h ++ l) = h := by
  ext i hi
  have e := BitVec.getLsbD_append (x := h) (y := l) (i := 8 + i)
  rw [if_neg (by omega), Nat.add_sub_cancel_left] at e
  simpa [hiByte, hi, ← BitVec.getLsbD_eq_getElem] using e

end Sys2Proof.Machine
end

