-- ==== Sys2Proof/Tests/Slice0.lean ====
section
/-! SUPPORT. Tests of the model on values of the spec (95_test_vectors.md, or the example of the rule named), and for
each statement that has hypotheses a state and operands that meet them. -/

namespace Sys2Proof.Tests
open Sys2Proof Sys2Proof.Machine

/-! ### Small states -/

/-- The handshake of 46_session.md R152's example. -/
def handshake : List Byte :=
  [0x0E, 0x00, 0x53, 0x00, 0x01, 0x00, 0x31, 0x01, 0x02, 0x03, 0x04, 0x46, 0x72, 0x7A, 0x52, 0x08]

/-- A null-mode build. -/
def nullBuild : Build := { defaultBuild with cryptoMode := .null }

/-- Just out of reset, in a mode. -/
def fresh : CryptoMode → State
  | .crypto => State.resetOf defaultBuild
  | .null   => State.resetOf nullBuild

/-- A state with these bytes in DATA from index 0 and LEN their number. -/
def withData (bs : List Byte) (s : State) : State :=
  { s with data := Memory.cells 0 bs, len := BitVec.ofNat 16 bs.length }

/-- A state with a session and both IVs `01 02 03 04`. -/
def inSession (s : State) : State :=
  { s with status := ⟨true, false, 0⟩, sendIv := ⟨0x01, 0x02, 0x03, 0x04⟩, recvIv := ⟨0x01, 0x02, 0x03, 0x04⟩ }

/-- A crypto-mode state with a session and these bytes as payload. -/
def ready (bs : List Byte) : State := inSession (withData bs (fresh .crypto))

/-- A state whose host is about to do these accesses. -/
def doing (es : List HostEvent) (s : State) : State := { s with pending := es }

/-- A read, and a write, of the host. -/
def reading (a : Addr) : HostEvent := .access (.read a)

/-- See `reading`. -/
def writing (a : Addr) (v : Byte) : HostEvent := .access (.write a v)

/-- The outcome is a next state that passes the check. -/
def answers (o : Outcome) (check : State → Bool) : Bool :=
  match o with
  | .next t    => check t
  | .fault _   => false
  | .refused _ => false

/-! ### Well-formedness: each check refuses an ill-formed term -/

theorem test_illformed_wr_address : (HostOp.wr 0x20000 0).wellFormed = false := by decide
theorem test_illformed_wr_byte : (HostOp.wr 0 256).wellFormed = false := by decide
theorem test_illformed_rd : (HostOp.rd 0x20000).wellFormed = false := by decide
theorem test_illformed_setlen : (HostOp.setlen 65536).wellFormed = false := by decide
theorem test_illformed_sethdr : (HostOp.sethdr 0 0 0 256).wellFormed = false := by decide
theorem test_illformed_wrdata_range : (HostOp.wrdata 65535 [0, 0]).wellFormed = false := by decide
theorem test_illformed_wrdata_byte : (HostOp.wrdata 0 [256]).wellFormed = false := by decide
theorem test_illformed_filldata_range : (HostOp.filldata 1 65536 0).wellFormed = false := by decide
theorem test_illformed_filldata_byte : (HostOp.filldata 0 1 256).wellFormed = false := by decide
theorem test_illformed_rddata : (HostOp.rddata 65536 1).wellFormed = false := by decide
theorem test_illformed_expectation : (HostLine.mk (.rd 0) (some 256)).wellFormed = false := by decide
theorem test_wellformed_boundaries :
    (HostOp.wr 0x1FFFF 255).wellFormed = true ∧ (HostOp.setlen 65535).wellFormed = true ∧
    (HostOp.wrdata 65534 [0, 255]).wellFormed = true ∧ (HostOp.filldata 0 65536 255).wellFormed = true ∧
    (HostOp.rddata 65535 1).wellFormed = true ∧ Instr.ofbR.wellFormed = true := by decide
theorem test_default_build_wellformed : defaultBuild.wellFormed = true := by decide +kernel
theorem test_illformed_table : ({ defaultBuild with shuffleTable := sboxDefault.set 0 sboxDefault[1] } : Build).wellFormed = false := by
  decide +kernel
theorem test_illformed_key : ({ defaultBuild with keySchedule := sboxDefault } : Build).wellFormed = false := by
  decide +kernel

/-! ### Decoding (30_encoding.md R67, the opcodes written bit by bit) -/

theorem test_decode_session_group :
    decode 0b00000001 = .command .init ∧ decode 0b00000010 = .command .enc ∧ decode 0b00000011 = .command .dec ∧
    decode 0b00000100 = .command .mkhdr ∧ decode 0b00000101 = .command .chklen := by decide
theorem test_decode_primitive_group :
    decode 0b00010000 = .command .aesblk ∧ decode 0b00010001 = .command .menc ∧ decode 0b00010010 = .command .mdec ∧
    decode 0b00010100 = .command .shufS ∧ decode 0b00010101 = .command .shufR ∧
    decode 0b00010110 = .command .ofbS ∧ decode 0b00010111 = .command .ofbR := by decide
theorem test_decode_illegal :
    decode 0x00 = .illegal 0x00 ∧ decode 0x06 = .illegal 0x06 ∧ decode 0x0F = .illegal 0x0F ∧
    decode 0x13 = .illegal 0x13 ∧ decode 0x18 = .illegal 0x18 ∧ decode 0xFF = .illegal 0xFF := by decide
theorem test_table_word : decodeTableWord 8 0x14 = some .shufS ∧ decodeTableWord 8 0x13 = none ∧ decodeTableWord 16 0x14 = none := by
  decide

/-- Lines of P1 and P2, with their transaction words (95_test_vectors.md). -/
theorem test_script_words :
    (readScript "sethdr 50 04 54 04 ; P2\nsetlen 0x1234\n\ncmd SHUF.S\nwrdata 1, 0F 53\nrdiv R".toList).map
      (fun ls => (scriptAccesses ls).map (·.encode)) =
    some [0x2000450, 0x2000504, 0x2000654, 0x2000704, 0x2000234, 0x2000312, 0x2000014, 0x300010F, 0x3000253, 0x0000C00,
      0x0000D00, 0x0000E00, 0x0000F00] := by decide +kernel
theorem test_script_expectation :
    (readScript "rd 0x1 => 26\nrdlen".toList).map scriptExpected = some [some 26, none, none] ∧
    meetsExpected [some 26, none, none] [0x1A, 0x00, 0x00] = true ∧ meetsExpected [some 26] [0x1B] = false := by
  decide +kernel
theorem test_script_rejects :
    readScript "cmd JUMP".toList = none ∧ readScript "wr 0x20000, 0".toList = none ∧
    readScript "wr 1, 0x1G".toList = none := by decide +kernel
theorem test_listing : listing 0x300010F = "0x300010F".toList := by decide +kernel

/-! ### AES (V1, V2, V3) -/

theorem test_gmul : [0x57, 0x80, 0xFF, 0x00, 0x01, 0x7F].map gmul = [0xAE, 0x1B, 0xE5, 0x00, 0x02, 0xFE] := by decide
theorem test_shift_rows :
    (shiftRows #v[0, 1, 2, 3, 4, 5, 6, 7, 8, 9, 10, 11, 12, 13, 14, 15]).toList =
      [0x00, 0x05, 0x0A, 0x0F, 0x04, 0x09, 0x0E, 0x03, 0x08, 0x0D, 0x02, 0x07, 0x0C, 0x01, 0x06, 0x0B] := by decide
theorem test_mix_columns :
    (mixColumns #v[0xDB, 0x13, 0x53, 0x45, 0xF2, 0x0A, 0x22, 0x5C, 1, 1, 1, 1, 0xC6, 0xC6, 0xC6, 0xC6]).toList =
      [0x8E, 0x4D, 0xA1, 0xBC, 0x9F, 0xDC, 0x58, 0x9D, 1, 1, 1, 1, 0xC6, 0xC6, 0xC6, 0xC6] := by decide +kernel
theorem test_aesblk_ignores_len :
    answers (exec .aesblk { withData (handshake.map fun _ => 0xFF) (fresh .null) with len := 0 })
      (fun t => t.data == Memory.cells 0 [0x9C, 0x74, 0xC3, 0x8E, 0x3F, 0x85, 0x8E, 0xF3, 0xDD, 0x7A, 0x02, 0x94, 0x8E,
        0x5D, 0x01, 0x33] && t.len == 0) = true := by decide +kernel

/-- The next word of an AES-256 key expansion, the number `i` of the word and the last eight, latest first (V1: FIPS-197,
general knowledge of the spec). -/
def nextKeyWord (i : Nat) (rcon : Byte) : List Quad → Quad
  | last :: ws =>
    let sub := fun b => sboxDefault.byteAt b
    let x : Quad :=
      if i % 8 = 0 then ⟨sub last.b1 ^^^ rcon, sub last.b2, sub last.b3, sub last.b0⟩
      else if i % 8 = 4 then ⟨sub last.b0, sub last.b1, sub last.b2, sub last.b3⟩ else last
    let p := ws.getD 6 x
    ⟨p.b0 ^^^ x.b0, p.b1 ^^^ x.b1, p.b2 ^^^ x.b2, p.b3 ^^^ x.b3⟩
  | [] => ⟨0, 0, 0, 0⟩

/-- The words of the expansion, latest first, from word `i` on. -/
def keyWords : (n i : Nat) → Byte → List Quad → List Quad
  | 0, _, _, ws        => ws
  | n + 1, i, rcon, ws => keyWords n (i + 1) (if i % 8 = 0 then gmul rcon else rcon) (nextKeyWord i rcon ws :: ws)

/-- The bytes of the 15 round keys of a key of eight words. -/
def keyExpansion (key : List Quad) : List Byte :=
  (keyWords 52 8 1 key.reverse).reverse.flatMap fun q => [q.b0, q.b1, q.b2, q.b3]

/-- Sixteen rows from 256 bytes. -/
def tableOf (bs : List Byte) : Table :=
  let row := fun r => Block.ofBytes (bs.drop (16 * r))
  #v[row 0, row 1, row 2, row 3, row 4, row 5, row 6, row 7, row 8, row 9, row 10, row 11, row 12, row 13, row 14, row 15]

/-- The default KEY is the expansion of its first 32 bytes (10_state.md R36). -/
theorem test_default_key_is_an_expansion :
    keyScheduleDefault.bytes.take 240 = keyExpansion [⟨0x13, 0, 0, 0⟩, ⟨8, 0, 0, 0⟩, ⟨6, 0, 0, 0⟩, ⟨0xB4, 0, 0, 0⟩,
      ⟨0x1B, 0, 0, 0⟩, ⟨0x0F, 0, 0, 0⟩, ⟨0x33, 0, 0, 0⟩, ⟨0x52, 0, 0, 0⟩] := by decide +kernel

/-- V1: FIPS-197 Appendix C.3. -/
theorem test_fips_197 :
    (aesEncrypt { defaultBuild with keySchedule := tableOf (keyExpansion [⟨0x00, 0x01, 0x02, 0x03⟩, ⟨0x04, 0x05, 0x06, 0x07⟩,
        ⟨0x08, 0x09, 0x0A, 0x0B⟩, ⟨0x0C, 0x0D, 0x0E, 0x0F⟩, ⟨0x10, 0x11, 0x12, 0x13⟩, ⟨0x14, 0x15, 0x16, 0x17⟩,
        ⟨0x18, 0x19, 0x1A, 0x1B⟩, ⟨0x1C, 0x1D, 0x1E, 0x1F⟩]) }
      #v[0x00, 0x11, 0x22, 0x33, 0x44, 0x55, 0x66, 0x77, 0x88, 0x99, 0xAA, 0xBB, 0xCC, 0xDD, 0xEE, 0xFF]).toList =
    [0x8E, 0xA2, 0xB7, 0xCA, 0x51, 0x67, 0x45, 0xBF, 0xEA, 0xFC, 0x49, 0x90, 0x4B, 0x49, 0x60, 0x89] := by decide +kernel

/-! ### Maple (V10, V11, V13) -/

theorem test_maple_passes :
    forwardPass [0x01, 0x02, 0x03] = [0xE6, 0x01, 0x47] ∧ reversePass [0xE6, 0x01, 0x47] = [0x23, 0xCE, 0x8C] ∧
    unreversePass [0x23, 0xCE, 0x8C] = [0xE6, 0x01, 0x47] ∧ unforwardPass [0xE6, 0x01, 0x47] = [0x01, 0x02, 0x03] := by
  decide +kernel
theorem test_menc :
    answers (exec .menc (withData [0x01, 0x02, 0x03] (fresh .crypto)))
      (fun t => t.data == Memory.cells 0 [0x70, 0x0C, 0xA3] && t.status == ⟨false, false, 0⟩) = true := by decide +kernel
theorem test_menc_counter_wraps :
    (mapleEncrypt (List.replicate 257 0x00)).take 8 = [0x78, 0x6D, 0xAE, 0xEE, 0x2F, 0xD6, 0x33, 0x2D] := by decide +kernel
theorem test_mdec :
    answers (exec .mdec (withData [0x16, 0x1F, 0x56, 0xE4] (fresh .null)))
      (fun t => t.data == Memory.cells 0 [0xEC, 0x23, 0xCD, 0x2B]) = true := by decide +kernel

/-! ### Shuffle (V20, V22) -/

theorem test_shuffle_first_step :
    stepArith defaultBuild ⟨0xF2, 0x53, 0x50, 0xC6⟩ 0x00 = ⟨0x1F, 0x97, 0xE2, 0x93⟩ ∧
    stepRotate ⟨0x1F, 0x97, 0xE2, 0x93⟩ = ⟨0xFC, 0xB8, 0x14, 0x9F⟩ := by decide +kernel
theorem test_shufS :
    answers (exec .shufS { ready [] with sendIv := ⟨0xFF, 0xFF, 0xFF, 0xFF⟩ })
      (fun t => t.sendIv == ⟨0x2D, 0x95, 0xC5, 0x76⟩ && t.recvIv == ⟨0x01, 0x02, 0x03, 0x04⟩) = true := by decide +kernel
theorem test_shufR :
    answers (exec .shufR { ready [] with recvIv := ⟨0x46, 0x72, 0x7A, 0x52⟩ })
      (fun t => t.recvIv == ⟨0x6D, 0xC0, 0x51, 0x75⟩ && t.sendIv == ⟨0x01, 0x02, 0x03, 0x04⟩) = true := by decide +kernel

/-! ### OFB (V30) -/

theorem test_ofbS_second_command :
    answers (exec .ofbS { ready [0x00, 0x00, 0x00, 0x00] with sendIv := ⟨0x7B, 0xBF, 0xA4, 0x56⟩ })
      (fun t => t.data == Memory.cells 0 [0x80, 0xEA, 0x33, 0xC3] && t.sendIv == ⟨0x73, 0x35, 0x6F, 0x67⟩) = true := by
  decide +kernel
theorem test_ofbR_empty_payload :
    answers (exec .ofbR (ready [])) (fun t => t.data == [] && t.recvIv == ⟨0x7B, 0xBF, 0xA4, 0x56⟩) = true := by decide +kernel
theorem test_aes_counts : [1460, 2917, 4376].map naes = [92, 184, 275] := by decide +kernel
theorem test_aes_count_of_the_loop : aesOfbCalls defaultBuild ⟨0x01, 0x02, 0x03, 0x04⟩ (List.replicate 17 0x00) = 2 := by
  decide +kernel

/-! ### Header (V40, V41) -/

theorem test_mkhdr :
    answers (exec .mkhdr { ready [] with sendIv := ⟨0xAA, 0xBB, 0xCC, 0xDD⟩, len := 0x1234 })
      (fun t => t.hdr == ⟨0x9F, 0xDD, 0xAB, 0xCF⟩) = true := by decide
theorem test_mkhdr_null :
    answers (exec .mkhdr { fresh .null with len := 3 }) (fun t => t.hdr == ⟨0x03, 0x00, 0x00, 0x00⟩) = true := by decide
theorem test_chklen :
    answers (exec .chklen { fresh .crypto with hdr := ⟨0x12, 0x34, 0x56, 0x78⟩ }) (fun t => t.len == 0x4C44) = true := by decide

/-! ### Sessions (V43, V50) -/

theorem test_init_from_fifteen_bytes :
    answers (exec .init (withData (handshake.take 15) (fresh .crypto)))
      (fun t => t.sendIv == ⟨0x01, 0x02, 0x03, 0x04⟩ && t.recvIv == ⟨0x46, 0x72, 0x7A, 0x52⟩ && t.statusByte == 0x03) =
      true := by decide +kernel
theorem test_init_too_short :
    answers (exec .init (withData (handshake.take 14) (fresh .crypto))) (fun t => t.statusByte == 0x3A) = true := by decide
theorem test_enc :
    answers (exec .enc (ready [0x00, 0x01, 0x02, 0x03]))
      (fun t => t.data == Memory.cells 0 [0x16, 0x1F, 0x56, 0xE4] && t.sendIv == ⟨0x7B, 0xBF, 0xA4, 0x56⟩ &&
        t.recvIv == ⟨0x01, 0x02, 0x03, 0x04⟩) = true := by decide +kernel
theorem test_enc_null :
    answers (exec .enc (withData [0xDE, 0xAD, 0xBE] (fresh .null)))
      (fun t => t == withData [0xDE, 0xAD, 0xBE] (fresh .null)) = true := by decide
theorem test_dec :
    answers (exec .dec (ready [0x16, 0x1F, 0x56, 0xE4]))
      (fun t => t.data == Memory.cells 0 [0x00, 0x01, 0x02, 0x03] && t.recvIv == ⟨0x7B, 0xBF, 0xA4, 0x56⟩) = true := by
  decide +kernel
theorem test_status_after_errors :
    answers (runCommand 0x00 (fresh .crypto)) (fun t => t.statusByte == 0x1A) = true ∧
    answers (runCommand 0x02 (fresh .crypto)) (fun t => t.statusByte == 0x2A) = true ∧
    answers (runCommand 0x16 (fresh .null)) (fun t => t.statusByte == 0x28) = true ∧
    answers (runCommand 0x03 (fresh .null)) (fun t => t.statusByte == 0x00) = true := by decide

/-! ### The host port -/

theorem test_write_len_high :
    answers (step (doing [writing 0x00003 0x12] { fresh .crypto with len := 0xFF34 })) (fun t => t.len == 0x1234) = true := by
  decide
theorem test_write_data_last :
    answers (step (doing [writing 0x1FFFF 0x77] (fresh .crypto))) (fun t => t.data == [(65535, 0x77)]) = true := by decide
theorem test_write_read_only :
    answers (step (doing [writing 0x00001 0xFF] (fresh .crypto))) (fun t => t == fresh .crypto) = true := by decide
theorem test_read_reserved :
    answers (step (doing [reading 0x0FFFF] (fresh .crypto))) (fun t => t.results == [0x00]) = true := by decide

/-! ### Witnesses: each statement's hypotheses met together -/

theorem witness_EncodeThenDecode : Instr.ofbR.wellFormed = true := by decide
theorem witness_DecoderIsTotal :
    decode 0x17 = .command .ofbR ∧ (0x17 : Byte) = encode .ofbR ∧ decode 0x13 = .illegal 0x13 := by decide
theorem witness_ListingWordFields :
    decodeAccess 0x2000002 = some (.write 0x00000 0x02) ∧ decodeAccess 0x1FFFF00 = some (.read 0x1FFFF) := by decide
theorem witness_PseudoOperationsExpand :
    65535 < 65536 ∧ (HostOp.wrdata 65534 [0, 255]).wellFormed = true ∧ 1 < [0, 255].length ∧
    (HostOp.filldata 65535 1 255).wellFormed = true ∧ 0 < 1 ∧ (HostOp.rddata 65535 1).wellFormed = true := by decide
theorem witness_StepRunsDecodedCommand :
    ∃ (s : State) (rest : List HostEvent), s.pending = .access (.write 0x00000 0x02) :: rest ∧ decode 0x02 = .command .enc :=
  ⟨doing [writing 0x00000 0x02] (ready [1]), [], rfl, by decide⟩
theorem witness_IllegalOpcodeOnlyReports :
    (∃ (s : State) (rest : List HostEvent), s.pending = .access (.write 0x00000 0x18) :: rest) ∧
    (∀ op ∈ [(0x00 : Byte), 0x06, 0x0F, 0x13, 0x18, 0xFF],
      op = 0x00 ∨ (0x06 ≤ op ∧ op ≤ 0x0F) ∨ op = 0x13 ∨ (0x18 ≤ op ∧ op ≤ 0xFF)) ∧
    (∀ op ∈ [(0x01 : Byte), 0x05, 0x10, 0x12, 0x14, 0x17],
      ¬ (op = 0x00 ∨ (0x06 ≤ op ∧ op ≤ 0x0F) ∨ op = 0x13 ∨ (0x18 ≤ op ∧ op ≤ 0xFF))) :=
  ⟨⟨doing [writing 0x00000 0x18] (fresh .null), [], rfl⟩, by decide, by decide⟩
theorem witness_StepTakesOneEvent :
    (∃ t, step (fresh .crypto) = .next t) ∧ (fresh .crypto).pending = [] ∧
    (∃ t, step (doing [reading 0x1FFFF, .reset] (fresh .crypto)) = .next t) ∧
    (∃ t, step (doing [.reset, reading 0x1FFFF] (fresh .crypto)) = .next t) ∧
    (∀ a rest, (doing [.reset, reading 0x1FFFF] (fresh .crypto)).pending ≠ .access (.read a) :: rest) :=
  ⟨⟨_, rfl⟩, rfl, ⟨_, rfl⟩, ⟨_, rfl⟩, fun _ _ h => by simp [doing] at h⟩
theorem witness_HostReadReturnsMappedByte :
    (doing [reading 0x1FFFF] { ready [] with data := [(65535, 0x77)] }).pending = [.access (.read 0x1FFFF)] ∧
    [0x00000, 0x00001, 0x00003, 0x00004, 0x00007, 0x00008, 0x0000B, 0x0000C, 0x0000F, 0x00010, 0x0FFFF, 0x1FFFF].map
        (fun a => State.hostByte
          { ready [] with len := 0xAB00, hdr := ⟨0x50, 0, 0, 0x54⟩, data := [(65535, 0x77)] } a) =
      [some 0x00, some 0x03, some 0xAB, some 0x50, some 0x54, some 0x01, some 0x04, some 0x01, some 0x04, some 0x00,
        some 0x00, some 0x77] := by decide
theorem witness_HostReadWithoutValueDraws :
    (doing [reading 0x00008] (fresh .crypto)).pending = [.access (.read 0x00008)] ∧
    [0x00008, 0x0000B, 0x0000C, 0x0000F, 0x10000, 0x1FFFF].map (fun a => (fresh .crypto).hostByte a) =
      [none, none, none, none, none, none] := by decide
theorem witness_HostWriteChangesOneByte :
    (doing [writing 0x00007 1] (fresh .crypto)).pending = [.access (.write 0x00007 1)] ∧ (0x00007 : Addr) ≠ 0 ∧
    [0x00001, 0x00002, 0x00007, 0x00008, 0x0000F, 0x00010, 0x0FFFF, 0x10000, 0x1FFFF].map hostWritable =
      [false, true, true, false, false, false, false, true, true] := by decide
theorem witness_HostWriteIsIdempotent :
    (doing [writing 0x10000 1, writing 0x10000 1] (fresh .crypto)).pending =
      [.access (.write 0x10000 1), .access (.write 0x10000 1)] ∧ (0x10000 : Addr) ≠ 0 := by decide
theorem witness_ResetInputClears :
    (doing [.reset] (ready [1])).pending = [.reset] ∧
    (8 ≤ (0x00008 : Addr).toNat ∧ (0x0000F : Addr).toNat ≤ 15 ∧ 0x10000 ≤ (0x1FFFF : Addr).toNat) ∧
    ∃ s t, step s = .next t ∧ s.pending.head? ≠ some .reset ∧ s.status.init = true ∧ s.status.errSeen = true :=
  ⟨rfl, by decide, { ready [] with status := ⟨true, true, 1⟩ }, _, rfl, by decide, rfl, rfl⟩
theorem witness_StatusReadAfterReset :
    (doing [.reset, reading 0x00001] (ready [])).pending = [.reset, .access (.read 0x00001)] ∧
    (ready []).build.cryptoMode = .crypto ∧ (doing [.reset, reading 0x00001] (fresh .null)).build.cryptoMode = .null := by
  decide
theorem witness_IvCommandsNeedSession :
    (fresh .crypto).status.init = false ∧ (fresh .crypto).build.cryptoMode = .crypto ∧ (fresh .null).status.init = false ∧
    ∃ t, exec .shufS (fresh .null) = .next t ∧ t.status.err = 2 := ⟨rfl, rfl, rfl, _, rfl, rfl⟩
theorem witness_ErrorsArePrecise :
    (∃ t, runCommand 0x00 (fresh .null) = .next t ∧ t.status.err ≠ 0) ∧
    (∃ t, runCommand 0x01 (fresh .null) = .next t ∧ t.status.err ≠ 0) ∧
    ∃ s t, step s = .next t ∧ s.pending.head? ≠ some .reset ∧ s.status.errSeen = true :=
  ⟨⟨_, rfl, by decide⟩, ⟨_, rfl, by decide⟩, { ready [] with status := ⟨true, true, 1⟩ }, _, rfl, by decide, rfl⟩
theorem witness_CommandLeavesKnownError :
    ∃ t, runCommand 0x05 (fresh .crypto) = .next t ∧ t.status.err = 0 := ⟨_, rfl, rfl⟩
theorem witness_TotalCommandsNeverFail :
    Instr.chklen ∈ [Instr.aesblk, .menc, .mdec, .chklen] ∧ ∃ t, exec .init (fresh .crypto) = .next t := ⟨by decide, _, rfl⟩
theorem witness_InitLoadsBothIvs :
    15 ≤ (withData (handshake.take 15) (fresh .null)).len.toNat ∧ (withData (handshake.take 14) (fresh .null)).len.toNat < 15 ∧
    15 ≤ (0xFFFF : Half).toNat ∧ (withData handshake (fresh .crypto)).len = 16 ∧
    (withData handshake (fresh .crypto)).build.cryptoMode = .crypto ∧
    (withData handshake (fresh .crypto)).status.errSeen = false ∧ (withData handshake (fresh .crypto)).holds 0 handshake :=
  ⟨by decide, by decide, by decide, by decide, by decide, by decide, by unfold State.holds; decide⟩
theorem witness_AesReadsSboxAndKeyOnly :
    let y : Build := { nullBuild with shuffleTable := sboxDefault, keySchedule := keyScheduleDefault.set 15 sboxDefault[0] }
    defaultBuild.sbox = y.sbox ∧ (∀ r : Fin 16, r ≠ 15 → defaultBuild.keySchedule.get r = y.keySchedule.get r) ∧
    defaultBuild ≠ y := ⟨rfl, by decide +kernel, by decide +kernel⟩
theorem witness_AesblkEncryptsBlock :
    (withData (List.replicate 16 0x00) (fresh .null)).build.sbox = sboxDefault ∧
    (withData (List.replicate 16 0x00) (fresh .null)).build.keySchedule = keyScheduleDefault ∧
    (withData (List.replicate 16 0x00) (fresh .null)).holds 0 (List.replicate 16 0x00) :=
  ⟨rfl, rfl, by unfold State.holds; decide⟩
theorem witness_ForwardPassBytewise : 0 < [(0x01 : Byte), 0x02].length ∧ 1 < [(0x01 : Byte), 0x02].length := by decide
theorem witness_ReversePassBytewise : 0 < [(0x01 : Byte), 0x02].length ∧ 1 + 1 = [(0x01 : Byte), 0x02].length := by decide
theorem witness_MdecDewhitensPayload : (withData [1, 2] (fresh .null)).data.lookup 1 = some 2 := by decide
theorem witness_MapleReadsPayloadOnly :
    ∃ (s u t w : State), s.len = u.len ∧ s.data = u.data ∧ s.draws = u.draws ∧ s.build ≠ u.build ∧ s.sendIv ≠ u.sendIv ∧
      exec .menc s = .next t ∧ exec .menc u = .next w :=
  ⟨ready [1], withData [1] (fresh .null), _, _, rfl, rfl, rfl, by decide +kernel, by decide, rfl, rfl⟩
theorem witness_session_commands :
    (ready [1]).status.init = true ∧ (ready [1]).build.cryptoMode = .crypto ∧ (fresh .crypto).status.init = false ∧
    (inSession (fresh .null)).status.init = true ∧ (fresh .null).build.cryptoMode = .null := by decide
theorem witness_OfbKeystreamClosedForm : 1457 < (List.replicate 1458 (0x00 : Byte)).length := by
  rw [List.length_replicate]; decide
theorem witness_AesCountFormula : 1455 < 1456 ∧ 1459 < 1460 := by decide
theorem witness_Ofb_payload_of_1457 : (List.replicate 1457 (0x00 : Byte)).length = 1457 := List.length_replicate
theorem witness_OfbTwiceRestoresPayload :
    ∃ (s t u : State), s.status.init = true ∧ u.status.init = true ∧ sameTables u.build s.build ∧ u.build ≠ s.build ∧
      exec .ofbS s = .next t ∧
      u.recvIv = s.sendIv ∧ u.len = s.len ∧ u.data = t.data ∧ s.data.lookup 1 = some 2 :=
  ⟨ready [1, 2], _, { ready [1, 2] with
    build := nullBuild
    data := (mapPayload (aesOfb defaultBuild ⟨0x01, 0x02, 0x03, 0x04⟩) (ready [1, 2])).data }, rfl, rfl, ⟨rfl, rfl, rfl⟩, by decide +kernel, rfl,
    rfl, rfl, rfl, by decide⟩
theorem witness_MkhdrBuildsHeader :
    ∃ s : State, s.build.cryptoMode = .crypto ∧ s.status.init = true ∧ s.sendIv = ⟨0x52, 0x30, 0x00, 0x00⟩ ∧ s.len = 100 :=
  ⟨{ ready [] with sendIv := ⟨0x52, 0x30, 0x00, 0x00⟩, len := 100 }, rfl, rfl, rfl, rfl⟩
theorem witness_ChklenRecoversLength :
    ∃ s : State, s.hdr = ⟨0x53, 0x00, 0x37, 0x00⟩ := ⟨{ fresh .null with hdr := ⟨0x53, 0x00, 0x37, 0x00⟩ }, rfl⟩
theorem witness_HeaderRoundTrip :
    (fresh .null).build.cryptoMode = .null ∧ (ready []).status.init = true ∧ (ready []).build.cryptoMode = .crypto := by decide

/-- A block that has what `ready` needs and the ciphertext of 46_session.md R154's example. -/
def receiver : State := ready [0x16, 0x1F, 0x56, 0xE4]

theorem witness_DecryptAfterEncryptIsIdentity :
    ∃ a a' : State, a.build.cryptoMode = .crypto ∧ receiver.build = a.build ∧ a.status.init = true ∧
      receiver.status.init = true ∧ receiver.recvIv = a.sendIv ∧ exec .enc a = .next a' ∧ receiver.len = a.len ∧
      (∀ i, i < a.len.toNat → receiver.data.lookup i = a'.data.lookup i) ∧ a.data.lookup 3 = some 0x03 :=
  ⟨ready [0x00, 0x01, 0x02, 0x03], _, rfl, rfl, rfl, rfl, rfl, rfl, rfl, by decide +kernel, by decide⟩
theorem witness_WireFrameRoundTrip :
    ∃ a a' : State, a.build.cryptoMode = .crypto ∧ receiver.build = a.build ∧ a.status.init = true ∧
      receiver.status.init = true ∧ receiver.recvIv = a.sendIv ∧ execAll [.mkhdr, .enc] a = .next a' ∧
      ({ receiver with hdr := ⟨0x50, 0x04, 0x54, 0x04⟩ } : State).hdr = a'.hdr ∧
      (∀ i, i < a.len.toNat → receiver.data.lookup i = a'.data.lookup i) ∧ a.data.lookup 3 = some 0x03 :=
  ⟨ready [0x00, 0x01, 0x02, 0x03], _, rfl, rfl, rfl, rfl, rfl, rfl, by decide, by decide +kernel, by decide⟩
theorem witness_steps_keep :
    ∃ s t : State, s.inv = true ∧ step s = .next t ∧ s.data ≠ [] :=
  ⟨doing [writing 0x10002 7] (ready [1]), _, by decide, rfl, by decide⟩
theorem witness_OnlyInitAndResetChangeInit :
    (∃ s t, step s = .next t ∧ t.status.init ≠ s.status.init ∧ s.pending.head? = some .reset) ∧
    (∃ s t, step s = .next t ∧ t.status.init ≠ s.status.init ∧
      s.pending.head? = some (.access (.write 0x00000 0x01))) ∧
    ∃ t, exec .init (fresh .crypto) = .next t :=
  ⟨⟨doing [.reset] (ready []), _, rfl, by decide, rfl⟩,
    ⟨doing [writing 0x00000 0x01] (withData handshake (fresh .crypto)), _, rfl, by decide, rfl⟩, _, rfl⟩
theorem witness_ErrSeenIsSticky :
    (∃ t, runCommand 0x00 (fresh .null) = .next t) ∧
    ∃ s t, step s = .next t ∧ s.status.errSeen = true ∧ t.status.errSeen = false :=
  ⟨⟨_, rfl⟩, { doing [.reset] (ready []) with status := ⟨true, true, 1⟩ }, _, rfl, rfl, rfl⟩
theorem witness_IvWriters :
    (∃ s t, exec .ofbS s = .next t ∧ t.sendIv ≠ s.sendIv) ∧ (∃ s t, exec .shufR s = .next t ∧ t.recvIv ≠ s.recvIv) ∧
    Instr.shufR ≠ .init :=
  ⟨⟨ready [], _, rfl, by decide +kernel⟩, ⟨ready [], _, rfl, by decide +kernel⟩, by decide⟩
theorem witness_DirectionsAreIndependent :
    ∃ s u t w : State, Instr.ofbS ≠ .init ∧ s.build = u.build ∧ s.status.init = u.status.init ∧ exec .ofbS s = .next t ∧
      exec .ofbS u = .next w ∧ s.sendIv = u.sendIv ∧ s.recvIv ≠ u.recvIv ∧ s.data ≠ u.data :=
  ⟨ready [1], { ready [2] with recvIv := ⟨9, 9, 9, 9⟩ }, _, _, by decide, rfl, rfl, rfl, rfl, rfl, by decide, by decide⟩
theorem witness_commands_answer :
    (∃ t, exec .menc (ready [1]) = .next t) ∧ (∃ t, exec .aesblk (fresh .null) = .next t) ∧
    (∃ t, exec .mkhdr (fresh .null) = .next t) ∧ Instr.menc ≠ .chklen ∧ Instr.menc ≠ .mkhdr :=
  ⟨⟨_, rfl⟩, ⟨_, rfl⟩, ⟨_, rfl⟩, by decide, by decide⟩
theorem witness_UnwrittenBytesAreDrawnAfresh :
    Memory.lookup [(1, 7)] (0 + 1) = some 7 ∧ Memory.lookup [(1, 7)] (0 + 0) = none ∧ Memory.lookup [(1, 7)] (0 + 2) = none ∧
    0 < 2 ∧ 2 < 3 := by decide

end Sys2Proof.Tests
end

section
/-! SUPPORT. What a command, a byte written to CMD and a step can do, said once. A command ends in one of two ways:
with the error `commandError` names, which changes STATUS only, or with its `commandEffect` and success
(60_exceptions.md R170, R171). Everything else here is read off that. -/

namespace Sys2Proof.Machine

/-! ### The two ends of a command -/

/-- The commands that need a session in a mode (60_exceptions.md R168). -/
def needsSession : Instr → CryptoMode → Bool
  | .shufS, _ | .shufR, _ | .ofbS, _ | .ofbR, _   => true
  | .enc, mode | .dec, mode | .mkhdr, mode        => mode == .crypto
  | .init, _ | .chklen, _ | .aesblk, _ | .menc, _ | .mdec, _ => false

/-- The error a command raises in a state, if it raises one (60_exceptions.md R168, R169). -/
def commandError (i : Instr) (s : State) : Option ErrorName :=
  if i = .init ∧ s.payloadLen < Config.handshakeMin then some .shortHs
  else if needsSession i s.build.cryptoMode = true ∧ s.status.init = false then some .notInit
  else none

/-- What a command that raises no error does before it ends in success. -/
def commandEffect : Instr → CryptoMode → State → State
  | .init, _, s        => startSession s
  | .enc, .crypto, s   => ofbPayload .send (mapPayload mapleEncrypt s)
  | .enc, .null, s     => s
  | .dec, .crypto, s   => mapPayload mapleDecrypt (ofbPayload .recv s)
  | .dec, .null, s     => s
  | .mkhdr, .crypto, s => { s with hdr := createHeader s.sendIv s.len }
  | .mkhdr, .null, s   => { s with hdr := nullHeader s.len }
  | .chklen, _, s      => { s with len := checkLength s.hdr }
  | .aesblk, _, s      => mapBlock (aesEncrypt s.build) s
  | .menc, _, s        => mapPayload mapleEncrypt s
  | .mdec, _, s        => mapPayload mapleDecrypt s
  | .shufS, _, s       => shuffleIv .send s
  | .shufR, _, s       => shuffleIv .recv s
  | .ofbS, _, s        => ofbPayload .send s
  | .ofbR, _, s        => ofbPayload .recv s

/-- The state after a command. -/
def commandResult (i : Instr) (s : State) : State :=
  match commandError i s with
  | some e => raise e s
  | none   => succeed (commandEffect i s.build.cryptoMode s)

theorem commandResult_of_error {i : Instr} {s : State} {e : ErrorName} (h : commandError i s = some e) :
    commandResult i s = raise e s := by simp only [commandResult, h]

theorem commandResult_of_success {i : Instr} {s : State} (h : commandError i s = none) :
    commandResult i s = succeed (commandEffect i s.build.cryptoMode s) := by simp only [commandResult, h]

/-- A command that needs a session: with one its effect, without one E_NOT_INIT. -/
theorem requireInit_eq_commandResult {i : Instr} {effect : State → State} {s : State} (hi : i ≠ .init)
    (hn : needsSession i s.build.cryptoMode = true) (he : commandEffect i s.build.cryptoMode s = effect s) :
    requireInit effect s = .next (commandResult i s) := by
  cases h : s.status.init with
  | true => rw [requireInit_of_init h, commandResult_of_success (by simp [commandError, hi, h]), he]
  | false => rw [requireInit_of_not_init h, commandResult_of_error (e := .notInit) (by simp [commandError, hi, hn, h])]

/-- A command that is not INIT and needs no session: its effect. -/
theorem succeed_eq_commandResult {i : Instr} {s u : State} (hi : i ≠ .init)
    (hn : needsSession i s.build.cryptoMode = false) (hu : commandEffect i s.build.cryptoMode s = u) :
    succeed u = commandResult i s := by
  rw [commandResult_of_success (by simp [commandError, hi, hn]), hu]

/-- Every command answers a next state, and which one. -/
theorem exec_eq_commandResult (i : Instr) (s : State) : exec i s = .next (commandResult i s) := by
  cases i with
  | init =>
    by_cases h : s.payloadLen < Config.handshakeMin
    · rw [commandResult_of_error (e := .shortHs) (by simp [commandError, h])]
      exact if_pos h
    · rw [commandResult_of_success (by simp [commandError, needsSession, h])]
      exact if_neg h
  | enc | dec | mkhdr =>
    cases hm : s.build.cryptoMode <;> simp only [exec, execEnc, execDec, execMkhdr, hm]
    · exact requireInit_eq_commandResult nofun (by rw [hm]; rfl) (by rw [hm]; rfl)
    · exact congrArg Host.Outcome.next (succeed_eq_commandResult nofun (by rw [hm]; rfl) (by rw [hm]; rfl))
  | shufS | shufR | ofbS | ofbR => exact requireInit_eq_commandResult nofun rfl rfl
  | chklen | aesblk | menc | mdec => exact congrArg Host.Outcome.next (succeed_eq_commandResult nofun rfl rfl)

/-- Everything a command can do. -/
theorem exec_cases {i : Instr} {s t : State} (h : exec i s = .next t) :
    (∃ e, commandError i s = some e ∧ t = raise e s) ∨
    (commandError i s = none ∧ t = succeed (commandEffect i s.build.cryptoMode s)) := by
  rw [exec_eq_commandResult] at h
  injection h with h
  subst h
  cases he : commandError i s with
  | some e => exact .inl ⟨e, rfl, commandResult_of_error he⟩
  | none => exact .inr ⟨rfl, commandResult_of_success he⟩

/-- INIT raises an error exactly when the handshake is short. -/
theorem commandError_init (s : State) : commandError .init s = none ↔ 15 ≤ s.len.toNat := by
  simp [commandError, needsSession, State.payloadLen]

/-! ### What the effect of a command does to each field -/

@[simp] theorem commandEffect_build (i : Instr) (mode : CryptoMode) (s : State) :
    (commandEffect i mode s).build = s.build := by
  cases i <;> cases mode <;> rfl

@[simp] theorem commandEffect_pending (i : Instr) (mode : CryptoMode) (s : State) :
    (commandEffect i mode s).pending = s.pending := by
  cases i <;> cases mode <;> rfl

@[simp] theorem commandEffect_results (i : Instr) (mode : CryptoMode) (s : State) :
    (commandEffect i mode s).results = s.results := by
  cases i <;> cases mode <;> rfl

/-- Only INIT touches STATUS before the end of the command. -/
theorem commandEffect_status (i : Instr) (mode : CryptoMode) (s : State) :
    (commandEffect i mode s).status = if i = .init then s.status.loaded else s.status := by
  cases i <;> cases mode <;> rfl

@[simp] theorem commandEffect_errSeen (i : Instr) (mode : CryptoMode) (s : State) :
    (commandEffect i mode s).status.errSeen = s.status.errSeen := by
  rw [commandEffect_status]
  split <;> rfl

/-- Only CHKLEN writes LEN (10_state.md R21). -/
theorem commandEffect_len (i : Instr) (mode : CryptoMode) (s : State) :
    (commandEffect i mode s).len = if i = .chklen then checkLength s.hdr else s.len := by
  cases i <;> cases mode <;> rfl

/-- Only MKHDR writes HDR (10_state.md R22). -/
theorem commandEffect_hdr {i : Instr} (hi : i ≠ .mkhdr) (mode : CryptoMode) (s : State) :
    (commandEffect i mode s).hdr = s.hdr := by
  cases i with
  | mkhdr => exact absurd rfl hi
  | _ => cases mode <;> rfl

/-- The commands but INIT that write SEND_IV store its shuffle (10_state.md R17, R19). -/
theorem commandEffect_sendIv {i : Instr} (hi : i ≠ .init) (mode : CryptoMode) (s : State) :
    (commandEffect i mode s).sendIv =
      if i ∈ [Instr.shufS, .ofbS] ∨ (i = .enc ∧ mode = .crypto) then shuffle s.build s.sendIv else s.sendIv := by
  cases i with
  | init => exact absurd rfl hi
  | _ => cases mode <;> rfl

/-- The commands but INIT that write RECV_IV store its shuffle (10_state.md R18, R19). -/
theorem commandEffect_recvIv {i : Instr} (hi : i ≠ .init) (mode : CryptoMode) (s : State) :
    (commandEffect i mode s).recvIv =
      if i ∈ [Instr.shufR, .ofbR] ∨ (i = .dec ∧ mode = .crypto) then shuffle s.build s.recvIv else s.recvIv := by
  cases i with
  | init => exact absurd rfl hi
  | _ => cases mode <;> rfl

@[simp] theorem mapleEncrypt_length (bs : List Byte) : (mapleEncrypt bs).length = bs.length :=
  repeatPass_length (fun _ => by simp) _ _

@[simp] theorem mapleDecrypt_length (bs : List Byte) : (mapleDecrypt bs).length = bs.length :=
  repeatPass_length (fun _ => by simp) _ _

/-- The OFB stage keeps the canonical form of DATA. -/
theorem ofbPayload_wf (d : Dir) (s : State) (h : s.data.wf = true) : (ofbPayload d s).data.wf = true := by
  cases d <;> exact mapPayload_wf _ (aesOfb_length _ _) s h

/-- The effect of every command keeps the canonical form of DATA. -/
theorem commandEffect_wf (i : Instr) (mode : CryptoMode) (s : State) (h : s.data.wf = true) :
    (commandEffect i mode s).data.wf = true := by
  have menc := mapPayload_wf mapleEncrypt mapleEncrypt_length s h
  cases i with
  | enc =>
    cases mode with
    | crypto => exact ofbPayload_wf .send _ menc
    | null => exact h
  | dec =>
    cases mode with
    | crypto => exact mapPayload_wf _ mapleDecrypt_length _ (ofbPayload_wf .recv s h)
    | null => exact h
  | mkhdr => cases mode <;> exact h
  | aesblk => exact mapBlock_wf _ s h
  | menc => exact menc
  | mdec => exact mapPayload_wf _ mapleDecrypt_length s h
  | ofbS => exact ofbPayload_wf .send s h
  | ofbR => exact ofbPayload_wf .recv s h
  | init | chklen | shufS | shufR => exact h

/-! ### A byte written to CMD -/

/-- A byte that decodes to a command is the opcode of that command (30_encoding.md R67). -/
theorem eq_encode_of_decode {op : Byte} {i : Instr} (h : decode op = .command i) : op = encode i := by
  have rows : ∀ row ∈ opcodeMap, row.1 = encode row.2 := by decide
  unfold decode at h
  split at h
  · next row hrow =>
    injection h with h
    have hop : row.1 = op := by simpa using List.find?_some hrow
    rw [← hop, ← h, rows row (List.mem_of_find?_eq_some hrow)]
  · cases h

/-- Every command decodes from its opcode (30_encoding.md R66). -/
theorem decode_encode (i : Instr) : decode (encode i) = .command i := by
  cases i <;> rfl

theorem runCommand_of_command {op : Byte} {i : Instr} (h : decode op = .command i) (s : State) :
    runCommand op s = exec i s := by simp only [runCommand, h]

/-- The two ends of a byte written to CMD: an error, or the effect of a command and success. -/
theorem runCommand_ends {op : Byte} {s t : State} (h : runCommand op s = .next t) :
    (∃ e, t = raise e s) ∨ (∃ i, t = succeed (commandEffect i s.build.cryptoMode s)) := by
  obtain ⟨i, -, hi⟩ | rfl := runCommand_cases h
  · obtain ⟨e, -, rfl⟩ | ⟨-, rfl⟩ := exec_cases hi
    · exact .inl ⟨e, rfl⟩
    · exact .inr ⟨i, rfl⟩
  · exact .inl ⟨.illegal, rfl⟩

/-- Every byte written to CMD answers a next state. -/
theorem runCommand_answers (op : Byte) (s : State) : ∃ t, runCommand op s = .next t := by
  unfold runCommand
  split
  · next i _ => exact ⟨_, exec_eq_commandResult i s⟩
  · exact ⟨_, rfl⟩

theorem runCommand_build {op : Byte} {s t : State} (h : runCommand op s = .next t) : t.build = s.build := by
  obtain ⟨e, rfl⟩ | ⟨i, rfl⟩ := runCommand_ends h <;> simp

@[simp] theorem ErrorName.code_ne_zero (e : ErrorName) : e.code ≠ 0#4 := by cases e <;> decide

/-- The codes are 1 to 3 (10_state.md R28). -/
theorem ErrorName.code_le_three (e : ErrorName) : e.code.toNat ≤ 3 := by cases e <;> decide

/-- ERRSEEN after a byte written to CMD (10_state.md R27). -/
theorem runCommand_errSeen {op : Byte} {s t : State} (h : runCommand op s = .next t) :
    t.status.errSeen = (s.status.errSeen || t.status.err != 0) := by
  obtain ⟨e, rfl⟩ | ⟨i, rfl⟩ := runCommand_ends h
  · simp
  · simp

/-- STATUS.INIT after a command (10_state.md R24). -/
theorem exec_init_bit {i : Instr} {s t : State} (h : exec i s = .next t) :
    t.status.init = (s.status.init || (i == .init && decide (15 ≤ s.len.toNat))) := by
  by_cases hi : i = .init
  · subst hi
    obtain ⟨e, he, rfl⟩ | ⟨he, rfl⟩ := exec_cases h
    · have : ¬ 15 ≤ s.len.toNat := fun hl => by simp [(commandError_init s).mpr hl] at he
      simp [this]
    · simp [commandEffect_status, (commandError_init s).mp he]
  · obtain ⟨e, -, rfl⟩ | ⟨-, rfl⟩ := exec_cases h <;> simp [commandEffect_status, hi]

/-! ### The port and the step -/

@[simp] theorem portRead_build (a : Addr) (s : State) : (portRead a s).2.build = s.build := by
  rcases portRead_state a s with h | h <;> rw [h]

@[simp] theorem portRead_status (a : Addr) (s : State) : (portRead a s).2.status = s.status := by
  rcases portRead_state a s with h | h <;> rw [h]

@[simp] theorem portRead_data (a : Addr) (s : State) : (portRead a s).2.data = s.data := by
  rcases portRead_state a s with h | h <;> rw [h]

@[simp] theorem portWrite_build (a : Addr) (v : Byte) (s : State) : (portWrite a v s).build = s.build := by
  obtain h | ⟨_, h⟩ | ⟨_, h⟩ | ⟨_, _, h⟩ := portWrite_cases a v s <;> simp [h]

@[simp] theorem portWrite_status (a : Addr) (v : Byte) (s : State) : (portWrite a v s).status = s.status := by
  obtain h | ⟨_, h⟩ | ⟨_, h⟩ | ⟨_, _, h⟩ := portWrite_cases a v s <;> simp [h]

/-- A host write keeps the canonical form of DATA. -/
theorem portWrite_wf (a : Addr) (v : Byte) (s : State) (h : s.data.wf = true) : (portWrite a v s).data.wf = true := by
  obtain e | ⟨_, e⟩ | ⟨_, e⟩ | ⟨i, hi, e⟩ := portWrite_cases a v s <;> rw [e]
  case inr.inr.inr => exact Memory.wf_writeRange _ _ _ h hi
  all_goals exact h

/-- A read where there is no value is a draw. -/
theorem portRead_of_no_value {a : Addr} {s : State} (h : s.hostByte a = none) : portRead a s = drawByte s := by
  rw [hostByte_eq_byteAt] at h
  rw [portRead_eq, h]

/-- The step whose event is a read of the host. -/
theorem step_read {s : State} {a : Addr} {rest : List HostEvent} (h : s.pending = .access (.read a) :: rest) :
    step s = hostAccess (.read a) { s with pending := rest } := by
  simp only [step, takeEvent, h, hostEvent]

/-- The step whose event is a byte written to CMD. -/
theorem step_write_cmd {s : State} {op : Byte} {rest : List HostEvent}
    (h : s.pending = .access (.write 0x00000 op) :: rest) : step s = runCommand op { s with pending := rest } := by
  simp only [step, takeEvent, h, hostEvent, hostAccess, (locate_eq_cmd 0x00000).mpr rfl]

/-- The fields of a byte put together as STATUS is (10_state.md R23). -/
theorem statusBits : ∀ (err : BitVec 4) (seen crypto init : Bool),
    let b : Byte := err ++ BitVec.ofBool seen ++ 0#1 ++ BitVec.ofBool crypto ++ BitVec.ofBool init
    b.getLsbD 0 = init ∧ b.getLsbD 1 = crypto ∧ b.getLsbD 2 = false ∧ b.getLsbD 3 = seen ∧ b.extractLsb' 4 4 = err := by
  decide

/-- What a step can do to STATUS: nothing, what a byte written to CMD does, or a reset. -/
theorem step_status_cases {s t : State} (h : step s = .next t) :
    t.status = s.status ∨
    (∃ op rest, s.pending = .access (.write 0 op) :: rest ∧ runCommand op { s with pending := rest } = .next t) ∨
    s.pending.head? = some .reset := by
  obtain ⟨-, rfl⟩ | ⟨e, rest, hp, ⟨a, rfl, rfl⟩ | ⟨op, rfl, hrun⟩ | ⟨a, v, rfl, -, rfl⟩ | ⟨rfl, rfl⟩⟩ := step_cases h
  · exact .inl rfl
  · exact .inl (by simp)
  · exact .inr (.inl ⟨op, rest, hp, hrun⟩)
  · exact .inl (by simp)
  · exact .inr (.inr (by simp [hp]))

/-! ### The invariant -/

theorem inv_iff (s : State) :
    s.inv = true ↔ s.data.wf = true ∧ s.status.err.toNat ≤ 3 ∧ (s.status.err = 0 ∨ s.status.errSeen = true) := by
  simp [State.inv, and_assoc]

/-- Every error that is raised leaves a code of 1 to 3 and is recorded. -/
theorem raise_inv (e : ErrorName) {s : State} (h : s.data.wf = true) : (raise e s).inv = true :=
  (inv_iff _).mpr ⟨h, e.code_le_three, .inr rfl⟩

theorem succeed_inv {s : State} (h : s.data.wf = true) : (succeed s).inv = true :=
  (inv_iff _).mpr ⟨h, by simp, .inl rfl⟩

/-- A byte written to CMD leaves the invariant behind wherever DATA was in canonical form. -/
theorem runCommand_inv {op : Byte} {s t : State} (h : runCommand op s = .next t) (hd : s.data.wf = true) :
    t.inv = true := by
  obtain ⟨e, rfl⟩ | ⟨i, rfl⟩ := runCommand_ends h
  · exact raise_inv e hd
  · exact succeed_inv (commandEffect_wf i _ s hd)

/-- The invariant after a change that keeps STATUS and the canonical form of DATA. -/
theorem inv_of_status_eq {s t : State} (h : s.inv = true) (hs : t.status = s.status)
    (hd : s.data.wf = true → t.data.wf = true) : t.inv = true := by
  obtain ⟨hw, hc⟩ := (inv_iff s).mp h
  exact (inv_iff t).mpr ⟨hd hw, hs ▸ hc⟩

/-! ### The draws of a range read -/

/-- A range read in two parts: the second goes on where the first stopped, in DATA and in the count of draws. -/
theorem Memory.readRange_add (m : Memory) (a i j d : Nat) :
    m.readRange a (i + j) d =
      ((m.readRange a i d).1 ++ (m.readRange (a + i) j (m.readRange a i d).2).1,
        (m.readRange (a + i) j (m.readRange a i d).2).2) := by
  induction i generalizing a d with
  | zero => simp [Memory.readRange]
  | succ i ih =>
    rw [show i + 1 + j = i + j + 1 by omega, show a + (i + 1) = a + 1 + i by omega]
    cases h : m.lookup a with
    | some v => simp [Memory.readRange_some m a _ d v h, ih]
    | none => simp [Memory.readRange_none m a _ d h, ih]

/-- The number of the draw that a range read from `a` makes for its byte `i`, if that byte holds no value: the count of
draws when the read reaches it. -/
def Memory.drawNumber (m : Memory) (a d i : Nat) : Nat := (m.readRange a i d).2

theorem Memory.le_drawNumber (m : Memory) (a d i : Nat) : d ≤ m.drawNumber a d i := m.readRange_draws_le a i d

/-- A byte without a value takes the draw of its number, and later bytes have higher ones. -/
theorem Memory.drawNumber_lt {m : Memory} {a d i j : Nat} (hij : i < j) (h : m.lookup (a + i) = none) :
    m.drawNumber a d i < m.drawNumber a d j := by
  obtain ⟨k, rfl⟩ : ∃ k, j = i + (k + 1) := ⟨j - i - 1, by omega⟩
  simp only [Memory.drawNumber]
  rw [Memory.readRange_add, Memory.readRange_none m _ _ _ h]
  exact m.readRange_draws_le _ _ _

/-- A range read returns the free value of its number for a byte that holds no value. -/
theorem Memory.readRange_drawn {m : Memory} {a n d i : Nat} (hi : i < n) (h : m.lookup (a + i) = none) :
    (m.readRange a n d).1[i]? = some (Config.freeByte (m.drawNumber a d i)) := by
  obtain ⟨k, rfl⟩ : ∃ k, n = i + (k + 1) := ⟨n - i - 1, by omega⟩
  rw [Memory.readRange_add, Memory.readRange_none m _ _ _ h]
  simp [Memory.drawNumber]

end Sys2Proof.Machine
end

section
/-! The obligations about the state (10_state.md). -/

namespace Sys2Proof.Machine

/-- Settles O50, by the cases of a step: a command ends with a known code and DATA in canonical form, a host access
keeps STATUS, and a reset clears both. -/
theorem stepKeepsInvariant : Obligations.StepKeepsInvariant := by
  intro s t hs h
  have hd : s.data.wf = true := ((inv_iff s).mp hs).1
  obtain ⟨-, rfl⟩ | ⟨e, rest, -, ⟨a, -, rfl⟩ | ⟨op, -, hrun⟩ | ⟨a, v, -, -, rfl⟩ | ⟨-, rfl⟩⟩ := step_cases h
  · exact hs
  · exact inv_of_status_eq hs (by simp) (by simp)
  · exact runCommand_inv hrun hd
  · exact inv_of_status_eq hs (by simp) fun _ => portWrite_wf a v _ hd
  · rfl

/-- Settles O10: where the address map gives no byte, a read draws one. -/
theorem hostReadWithoutValueDraws : Obligations.HostReadWithoutValueDraws := by
  intro s a rest hp hb
  have hdraw : portRead a { s with pending := rest } = drawByte { s with pending := rest } := portRead_of_no_value hb
  rw [step_read hp, hostAccess, hdraw]
  rfl

/-- Settles O18, by the two ends of a byte written to CMD. -/
theorem commandLeavesKnownError : Obligations.CommandLeavesKnownError := by
  intro op s
  obtain ⟨t, h⟩ := runCommand_answers op s
  refine ⟨t, h, ?_⟩
  obtain ⟨e, rfl⟩ | ⟨i, rfl⟩ := runCommand_ends h
  · exact ⟨by cases e <;> simp, fun h0 => absurd h0 e.code_ne_zero⟩
  · simp

/-- Settles O53, by the cases of a step. -/
theorem buildNeverChanges : Obligations.BuildNeverChanges := by
  intro s t h
  obtain ⟨-, rfl⟩ | ⟨e, rest, -, ⟨a, -, rfl⟩ | ⟨op, -, hrun⟩ | ⟨a, v, -, -, rfl⟩ | ⟨-, rfl⟩⟩ := step_cases h
  · rfl
  · simp
  · exact (runCommand_build hrun :)
  · simp
  · rfl

/-- Settles O54: a step that changes STATUS.INIT and is no reset ran a command, and only INIT changes it. -/
theorem onlyInitAndResetChangeInit : Obligations.OnlyInitAndResetChangeInit := by
  refine ⟨fun i s t h => exec_init_bit h, fun s t h hne => ?_⟩
  obtain hst | ⟨op, rest, hp, hrun⟩ | hreset := step_status_cases h
  · exact absurd (congrArg Status.init hst) hne
  · obtain ⟨i, hdec, hi⟩ | rfl := runCommand_cases hrun
    · have hinit : i = .init := by
        by_contra hn
        exact hne (by simp [exec_init_bit hi, hn])
      rw [hp, eq_encode_of_decode hdec, hinit]
      exact .inr rfl
    · exact absurd rfl hne
  · exact .inl hreset

/-- Settles O55: a step that changes ERRSEEN and is no reset ran a byte written to CMD, which never clears it. -/
theorem errSeenIsSticky : Obligations.ErrSeenIsSticky := by
  refine ⟨fun op s t h => runCommand_errSeen h, fun s t h hs ht => ?_⟩
  obtain hst | ⟨op, rest, -, hrun⟩ | hreset := step_status_cases h
  · simp [hst, hs] at ht
  · simp [runCommand_errSeen hrun, hs] at ht
  · exact hreset

/-- Settles O56: an error leaves both IVs, and a success leaves each or stores its shuffle. -/
theorem ivWriters : Obligations.IvWriters := by
  intro i s t h
  obtain ⟨e, -, rfl⟩ | ⟨-, rfl⟩ := exec_cases h
  · simp
  · by_cases hi : i = .init
    · simp [hi]
    · have hsend := commandEffect_sendIv hi s.build.cryptoMode s
      have hrecv := commandEffect_recvIv hi s.build.cryptoMode s
      rw [succeed_sendIv, succeed_recvIv, hsend, hrecv]
      exact ⟨fun hne => (ite_ne_right_iff.mp hne).1.imp_left (List.mem_cons_of_mem _),
        fun hne => (ite_ne_right_iff.mp hne).1.imp_left (List.mem_cons_of_mem _),
        fun _ => ⟨(ite_eq_or_eq _ _ _).symm, (ite_eq_or_eq _ _ _).symm⟩⟩

/-- Settles O59: an error leaves all four fields, and a success writes LEN and HDR only by CHKLEN and MKHDR. -/
theorem lenAndHdrWriters : Obligations.LenAndHdrWriters := by
  intro i s t h
  obtain ⟨e, -, rfl⟩ | ⟨-, rfl⟩ := exec_cases h
  · exact ⟨fun _ => rfl, fun _ => rfl, rfl, rfl⟩
  · exact ⟨fun hi => by simp [commandEffect_len, hi], fun hi => by simp [commandEffect_hdr hi], by simp, by simp⟩

/-- Settles O60: the draw for a byte has the count of draws when the read reaches it. -/
theorem unwrittenBytesAreDrawnAfresh : Obligations.UnwrittenBytesAreDrawnAfresh := by
  intro m a n d
  refine ⟨m.readRange_length a n d, m.readRange_draws_le a n d, m.drawNumber a d, ?_, ?_, ?_⟩
  · exact fun i hi v hv => m.readRange_value a n d i v hi hv
  · exact fun i hi hv => ⟨Memory.readRange_drawn hi hv, m.le_drawNumber a d i, Memory.drawNumber_lt hi hv⟩
  · exact fun i j hij _ hv _ => Memory.drawNumber_lt hij hv

/-- Settles O6: CMD is at address 0, and `withFetchWord` puts a write of the opcode there. -/
theorem stepRunsDecodedCommand : Obligations.StepRunsDecodedCommand := by
  refine ⟨fun s op rest i hp hdec => ?_, fun s i => ?_⟩
  · rw [step_write_cmd hp, runCommand_of_command hdec]
  · have hp : (s.withFetchWord 8 (encode i).toNat).pending = .access (.write 0x00000 (encode i)) :: s.pending := by
      simp [State.withFetchWord, fetchEvent]
    rw [step_write_cmd hp, runCommand_of_command (decode_encode i)]
    rfl

/-- Settles O13: each field of STATUS read back from the concatenation. -/
theorem statusByteLayout : Obligations.StatusByteLayout := by
  exact fun s => statusBits s.status.err s.status.errSeen s.cryptoBit s.status.init

end Sys2Proof.Machine
end

section
/-! SUPPORT. The host port under a write (20_memory.md R48 to R51), what a step does to the host's two lists (R57), and
the reach of a command: the IVs its result depends on (R62) and the DATA bytes it leaves alone (R55). -/

namespace Sys2Proof.Machine

/-! ### What a host access leaves unchanged -/

@[simp] theorem portRead_pending (a : Addr) (s : State) : (portRead a s).2.pending = s.pending := by
  rcases portRead_state a s with h | h <;> rw [h]

@[simp] theorem portWrite_sendIv (a : Addr) (v : Byte) (s : State) : (portWrite a v s).sendIv = s.sendIv := by
  obtain h | ⟨_, h⟩ | ⟨_, h⟩ | ⟨_, _, h⟩ := portWrite_cases a v s <;> simp [h]

@[simp] theorem portWrite_recvIv (a : Addr) (v : Byte) (s : State) : (portWrite a v s).recvIv = s.recvIv := by
  obtain h | ⟨_, h⟩ | ⟨_, h⟩ | ⟨_, _, h⟩ := portWrite_cases a v s <;> simp [h]

@[simp] theorem portWrite_draws (a : Addr) (v : Byte) (s : State) : (portWrite a v s).draws = s.draws := by
  obtain h | ⟨_, h⟩ | ⟨_, h⟩ | ⟨_, _, h⟩ := portWrite_cases a v s <;> simp [h]

@[simp] theorem portWrite_pending (a : Addr) (v : Byte) (s : State) : (portWrite a v s).pending = s.pending := by
  obtain h | ⟨_, h⟩ | ⟨_, h⟩ | ⟨_, _, h⟩ := portWrite_cases a v s <;> simp [h]

@[simp] theorem portWrite_results (a : Addr) (v : Byte) (s : State) : (portWrite a v s).results = s.results := by
  obtain h | ⟨_, h⟩ | ⟨_, h⟩ | ⟨_, _, h⟩ := portWrite_cases a v s <;> simp [h]

/-- A byte written to CMD leaves the events to come. -/
theorem runCommand_pending {op : Byte} {s t : State} (h : runCommand op s = .next t) : t.pending = s.pending := by
  obtain ⟨e, rfl⟩ | ⟨i, rfl⟩ := runCommand_ends h <;> simp

/-- A byte written to CMD gives the host no byte. -/
theorem runCommand_results {op : Byte} {s t : State} (h : runCommand op s = .next t) : t.results = s.results := by
  obtain ⟨e, rfl⟩ | ⟨i, rfl⟩ := runCommand_ends h <;> simp

/-! ### A host access at an address -/

/-- A read where there is a value returns it and changes nothing. -/
theorem portRead_of_value {a : Addr} {s : State} {v : Byte} (h : s.hostByte a = some v) : portRead a s = (v, s) := by
  rw [hostByte_eq_byteAt] at h
  rw [portRead_eq, h]

/-- The step whose event is a host write to another address than CMD. -/
theorem step_write {s : State} {a : Addr} {v : Byte} {rest : List HostEvent}
    (h : s.pending = .access (.write a v) :: rest) (ha : a ≠ 0) :
    step s = .next (portWrite a v { s with pending := rest }) := by
  have hl : locate a ≠ .cmd := fun hc => ha ((locate_eq_cmd a).mp hc)
  -- `hl` sends the match on `locate a` to its last arm
  simp only [step, takeEvent, h, hostEvent, hostAccess]

/-- A write where the map does not store is ignored (20_memory.md R49, R50). -/
theorem portWrite_of_not_stores {a : Addr} (h : (locate a).stores = false) (v : Byte) (s : State) :
    portWrite a v s = s := by
  cases hl : locate a with
  | lenLo | lenHi | hdr | data => simp [hl, PortLoc.stores] at h
  | cmd | status | sendIv | recvIv | reserved => simp only [portWrite, hl]

/-- A byte read after a write of one byte. -/
theorem Memory.lookup_writeRange_singleton (m : Memory) (a : Nat) (v : Byte) (k : Nat) :
    (m.writeRange a [v]).lookup k = if k = a then some v else m.lookup k := by
  split
  · next h => simp [h, Memory.lookup_writeRange]
  · next h => exact Memory.lookup_writeRange_outside m a [v] k (by rw [List.length_singleton]; omega)

/-- The bytes the host finds after a write: v where it was stored, and everywhere else the byte of before. -/
theorem byteAt_portWrite (a : Addr) (v : Byte) (s : State) (l : PortLoc) :
    (portWrite a v s).byteAt l = if l = locate a ∧ (locate a).stores = true then some v else s.byteAt l := by
  cases hst : (locate a).stores with
  | false => simp [portWrite_of_not_stores hst]
  | true =>
    cases hl : locate a with
    | cmd | status | sendIv | recvIv | reserved => simp [hl, PortLoc.stores] at hst
    | lenLo | lenHi => cases l <;> simp [portWrite, hl, State.byteAt, State.statusByte, State.cryptoBit]
    | hdr i =>
      cases l with
      | hdr j => simp [portWrite, hl, State.byteAt, quad_get_set, apply_ite some]
      | _ => simp [portWrite, hl, State.byteAt, State.statusByte, State.cryptoBit]
    | data i =>
      cases l with
      | data k => simp [portWrite, hl, State.byteAt, Memory.lookup_writeRange_singleton]
      | _ => simp [portWrite, hl, State.byteAt, State.statusByte, State.cryptoBit]

/-- A host write stores its byte at its own address, where the map stores, and nowhere else. -/
theorem hostByte_portWrite (a : Addr) (v : Byte) (s : State) (b : Addr) :
    (portWrite a v s).hostByte b = if b = a ∧ hostWritable a = true then some v else s.hostByte b := by
  have hiff : locate b = locate a ∧ (locate a).stores = true ↔ b = a ∧ (locate a).stores = true := by
    refine and_congr_left fun hst => ⟨fun h => eq_of_locate_eq h fun hr => ?_, congrArg locate⟩
    rw [← h, hr] at hst
    cases hst
  simp only [hostByte_eq_byteAt, hostWritable_locate, byteAt_portWrite, hiff]

/-- A host write does not look at the events to come. -/
theorem portWrite_with_pending (a : Addr) (v : Byte) (s : State) (p : List HostEvent) :
    portWrite a v { s with pending := p } = { portWrite a v s with pending := p } := by
  unfold portWrite
  cases locate a <;> rfl

/-- A four-byte register with an element replaced twice by the same byte. -/
theorem quad_set_twice (q : Quad) (v : Byte) (i : Fin 4) : (q.set v i).set v i = q.set v i := by
  match i with
  | 0 | 1 | 2 | 3 => rfl

/-- The same host write twice is the write once (20_memory.md R51). -/
theorem portWrite_twice (a : Addr) (v : Byte) (s : State) : portWrite a v (portWrite a v s) = portWrite a v s := by
  cases hl : locate a with
  | lenLo | lenHi => simp [portWrite, hl]
  | hdr i => simp [portWrite, hl, quad_set_twice]
  | data i => simp [portWrite, hl, writeData, Memory.writeRange_twice]
  | cmd | status | sendIv | recvIv | reserved => simp only [portWrite, hl]

/-! ### The reach of a command -/

/-- Whether a command but INIT raises an error depends on the build and STATUS.INIT alone. -/
theorem commandError_congr {i : Instr} (hi : i ≠ .init) {s u : State} (hb : s.build = u.build)
    (hs : s.status.init = u.status.init) : commandError i s = commandError i u := by
  simp [commandError, hi, hb, hs]

theorem sameDataFrom_refl (n : Nat) (s : State) : sameDataFrom n s s := fun _ _ => rfl

theorem sameDataFrom_trans {n : Nat} {s t u : State} (h : sameDataFrom n s t) (h' : sameDataFrom n t u) :
    sameDataFrom n s u := fun a ha => (h' a ha).trans (h a ha)

/-- Work on the block in place leaves DATA from 16 up alone. -/
theorem mapBlock_sameDataFrom (f : Block → Block) (s : State) : sameDataFrom 16 s (mapBlock f s) := by
  intro a ha
  rw [mapBlock_data, Memory.lookup_writeRange_outside]
  rw [Vector.length_toList]
  omega

/-- The OFB stage leaves DATA from LEN up alone. -/
theorem ofbPayload_sameDataFrom (d : Dir) (s : State) : sameDataFrom s.len.toNat s (ofbPayload d s) := by
  cases d <;> exact mapPayload_sameDataFrom _ (aesOfb_length _ _) s

/-- The effect of a command leaves alone the DATA bytes that are not its own to write (20_memory.md R55). -/
theorem commandEffect_sameDataFrom (i : Instr) (mode : CryptoMode) (s : State) :
    sameDataFrom (dataWritten i s) s (commandEffect i mode s) := by
  have menc := mapPayload_sameDataFrom mapleEncrypt mapleEncrypt_length s
  cases i with
  | enc =>
    cases mode with
    | crypto => exact sameDataFrom_trans menc (ofbPayload_sameDataFrom .send (mapPayload mapleEncrypt s))
    | null => exact sameDataFrom_refl _ s
  | dec =>
    cases mode with
    | crypto =>
      exact sameDataFrom_trans (ofbPayload_sameDataFrom .recv s)
        (mapPayload_sameDataFrom mapleDecrypt mapleDecrypt_length (ofbPayload .recv s))
    | null => exact sameDataFrom_refl _ s
  | mkhdr => cases mode <;> exact fun _ _ => rfl
  | aesblk => exact mapBlock_sameDataFrom _ s
  | menc => exact menc
  | mdec => exact mapPayload_sameDataFrom _ mapleDecrypt_length s
  | ofbS => exact ofbPayload_sameDataFrom .send s
  | ofbR => exact ofbPayload_sameDataFrom .recv s
  | init | chklen | shufS | shufR => exact fun _ _ => rfl

end Sys2Proof.Machine
end

section
/-! The obligations about memory and the host port (20_memory.md). -/

namespace Sys2Proof.Machine

/-- Settles O8, by the cases of a step: each takes its event off the list, and only a read adds a byte. -/
theorem stepTakesOneEvent : Obligations.StepTakesOneEvent := by
  intro s t h
  obtain ⟨hp, rfl⟩ | ⟨e, rest, hp, ⟨a, rfl, rfl⟩ | ⟨op, rfl, hrun⟩ | ⟨a, v, rfl, -, rfl⟩ | ⟨rfl, rfl⟩⟩ := step_cases h
  · simp [hp]
  · simp [hp]
  · simp [hp, runCommand_pending hrun, runCommand_results hrun]
  · simp [hp]
  · simp [hp]

/-- Settles O9: where the address map gives a byte, a read returns it. -/
theorem hostReadReturnsMappedByte : Obligations.HostReadReturnsMappedByte := by
  intro s a rest v hp hb
  have hread : portRead a { s with pending := rest } = (v, { s with pending := rest }) := portRead_of_value hb
  rw [step_read hp, hostAccess, hread]

/-- Settles O11: the write stores its byte where the map's write column does, and changes nothing else. -/
theorem hostWriteChangesOneByte : Obligations.HostWriteChangesOneByte := by
  intro s a v rest hp ha
  exact ⟨_, step_write hp ha, fun b => hostByte_portWrite a v _ b, by simp⟩

/-- Settles O12: the second write finds its byte stored already. -/
theorem hostWriteIsIdempotent : Obligations.HostWriteIsIdempotent := by
  intro s a v rest hp ha
  refine ⟨_, step_write hp ha, ?_⟩
  rw [step_write (portWrite_pending a v _) ha, portWrite_with_pending, portWrite_twice]

/-- Settles O57: both states raise the same error or none, and a success makes of an IV what it makes of its value. -/
theorem directionsAreIndependent : Obligations.DirectionsAreIndependent := by
  intro i s u t w hi hb hs ht hw
  have herr := commandError_congr hi hb hs
  obtain ⟨e, he, rfl⟩ | ⟨he, rfl⟩ := exec_cases ht <;> obtain ⟨e', he', rfl⟩ | ⟨he', rfl⟩ := exec_cases hw
  · simp
  · simp [he, he'] at herr
  · simp [he, he'] at herr
  · simp only [succeed_sendIv, succeed_recvIv, commandEffect_sendIv hi, commandEffect_recvIv hi, hb]
    exact ⟨fun h => by rw [h], fun h => by rw [h]⟩

/-- Settles O58: an error writes no DATA, and a success only the bytes of its command. -/
theorem commandsWriteOnlyTheirData : Obligations.CommandsWriteOnlyTheirData := by
  intro i s t h
  obtain ⟨e, -, rfl⟩ | ⟨-, rfl⟩ := exec_cases h
  · exact fun _ _ => rfl
  · exact commandEffect_sameDataFrom i _ s

end Sys2Proof.Machine
end

section
/-! SUPPORT. The encodings, said once: the two ends of the decoder and the decoder by fields (30_encoding.md R68, R70,
R71), the fields and the digits of a listing word (R75), and the accesses of a host-script operation (R74). -/

namespace Sys2Proof

/-! ### The decoder -/

/-- A statement about every command is its twelve instances. -/
theorem Instr.forall_iff (p : Instr → Prop) :
    (∀ i, p i) ↔ p .init ∧ p .enc ∧ p .dec ∧ p .mkhdr ∧ p .chklen ∧ p .aesblk ∧ p .menc ∧ p .mdec ∧ p .shufS ∧
      p .shufR ∧ p .ofbS ∧ p .ofbR := by
  constructor
  · intro h
    simp only [h, and_self]
  · rintro ⟨_, _, _, _, _, _, _, _, _, _, _, _⟩ i
    cases i <;> assumption

/-- A byte is the opcode of a command and decodes to it, or it is no command's opcode and is illegal. -/
theorem decode_cases (op : Byte) :
    (∃ i, op = encode i ∧ decode op = .command i) ∨ ((∀ i, op ≠ encode i) ∧ decode op = .illegal op) := by
  cases h : decode op with
  | command i => exact .inl ⟨i, Machine.eq_encode_of_decode h, rfl⟩
  | illegal op' =>
    have hop : op' = op := by
      unfold decode at h
      split at h
      · cases h
      · injection h with h
        exact h.symm
    refine .inr ⟨fun i hi => ?_, by rw [hop]⟩
    rw [hi, Machine.decode_encode] at h
    cases h

theorem decode_eq_command_iff (op : Byte) (i : Instr) : decode op = .command i ↔ op = encode i :=
  ⟨Machine.eq_encode_of_decode, fun h => h ▸ Machine.decode_encode i⟩

/-- The bytes that are no command's opcode are those below, between and above the twelve (30_encoding.md R70). -/
theorem forall_ne_encode_iff (op : Byte) :
    (∀ i, op ≠ encode i) ↔ op = 0x00 ∨ (0x06 ≤ op ∧ op ≤ 0x0F) ∨ op = 0x13 ∨ (0x18 ≤ op ∧ op ≤ 0xFF) := by
  rw [Instr.forall_iff]
  simp only [encode]
  bv_omega

/-- A byte is illegal exactly when 30_encoding.md R70 lists it. -/
theorem decode_eq_illegal_iff (op : Byte) :
    decode op = .illegal op ↔ op = 0x00 ∨ (0x06 ≤ op ∧ op ≤ 0x0F) ∨ op = 0x13 ∨ (0x18 ≤ op ∧ op ≤ 0xFF) := by
  rw [← forall_ne_encode_iff]
  obtain ⟨i, hop, hdec⟩ | ⟨hne, hdec⟩ := decode_cases op
  · simp only [hdec, reduceCtorEq, false_iff, not_forall, not_not]
    exact ⟨i, hop⟩
  · exact iff_of_true hdec hne

theorem command_or_illegal (op : Byte) : (∃ i, decode op = .command i) ∨ decode op = .illegal op :=
  (decode_cases op).imp (fun ⟨i, _, hdec⟩ => ⟨i, hdec⟩) And.right

/-- 30_encoding.md R70 lists 244 bytes. -/
theorem listedIllegal_count :
    ((List.range 256).filter fun n =>
      let op := BitVec.ofNat 8 n
      decide (op = 0x00 ∨ (0x06 ≤ op ∧ op ≤ 0x0F) ∨ op = 0x13 ∨ (0x18 ≤ op ∧ op ≤ 0xFF))).length = 244 := by
  decide +kernel

/-! ### The decoder by fields -/

theorem byte_eq_append_nibbles (op : Byte) : op.extractLsb' 4 4 ++ op.extractLsb' 0 4 = op := by
  rw [BitVec.extractLsb'_append_extractLsb'_eq_extractLsb' (show 4 = 0 + 4 from rfl), BitVec.extractLsb'_eq_self]

theorem decodeByFields_session : ∀ lo : BitVec 4, decodeByFields (0#4 ++ lo) = decode (0#4 ++ lo) := by decide

theorem decodeByFields_primitive : ∀ lo : BitVec 4, decodeByFields (1#4 ++ lo) = decode (1#4 ++ lo) := by decide

/-- A byte whose upper half names no group is illegal to the decoder by fields. -/
theorem decodeByFields_of_no_group {op : Byte} (h0 : op.extractLsb' 4 4 ≠ 0#4) (h1 : op.extractLsb' 4 4 ≠ 1#4) :
    decodeByFields op = .illegal op := by
  have e0 : (op.extractLsb' 4 4 == Group.session.nibble) = false := by simpa [Group.nibble] using h0
  have e1 : (op.extractLsb' 4 4 == Group.primitive.nibble) = false := by simpa [Group.nibble] using h1
  simp only [decodeByFields, e0, e1]

/-- The upper half of an opcode names the group of its command (30_encoding.md R68). -/
theorem upperHalf_encode (i : Instr) : (encode i).extractLsb' 4 4 = if i.group = .session then 0x0 else 0x1 := by
  cases i <;> decide

/-- A byte whose upper half names no group is illegal to the map. -/
theorem decode_of_no_group {op : Byte} (h0 : op.extractLsb' 4 4 ≠ 0#4) (h1 : op.extractLsb' 4 4 ≠ 1#4) :
    decode op = .illegal op := by
  obtain ⟨i, rfl, -⟩ | ⟨-, hdec⟩ := decode_cases op
  · rw [upperHalf_encode] at h0 h1
    split at h0
    · exact absurd rfl h0
    · next hi => exact absurd (if_neg hi) h1
  · exact hdec

/-- The two decoders agree in each group and outside both (30_encoding.md R68). -/
theorem decodeByFields_eq_decode (op : Byte) : decodeByFields op = decode op := by
  by_cases h0 : op.extractLsb' 4 4 = 0#4
  · rw [← byte_eq_append_nibbles op, h0, decodeByFields_session]
  by_cases h1 : op.extractLsb' 4 4 = 1#4
  · rw [← byte_eq_append_nibbles op, h1, decodeByFields_primitive]
  · rw [decodeByFields_of_no_group h0 h1, decode_of_no_group h0 h1]

/-! ### The listing word -/

/-- The fields read back from a word put together of them. -/
theorem listingFields_append (w : Bool) (a : Addr) (v : Byte) :
    let t : BitVec 26 := BitVec.ofBool w ++ a ++ v
    t.getLsbD 25 = w ∧ t.extractLsb' 8 17 = a ∧ t.extractLsb' 0 8 = v := by
  refine ⟨?_, ?_, BitVec.extractLsb'_append_eq_right⟩
  · rw [BitVec.getLsbD_append, if_neg (by decide), BitVec.getLsbD_append, if_neg (by decide)]
    simp
  · rw [BitVec.extractLsb'_append_eq_of_le (le_refl 8)]
    exact BitVec.extractLsb'_append_eq_right

/-- A word is its fields put together. -/
theorem append_listingFields (t : BitVec 26) :
    BitVec.ofBool (t.getLsbD 25) ++ t.extractLsb' 8 17 ++ t.extractLsb' 0 8 = t := by
  have hbit : BitVec.ofBool (t.getLsbD 25) = t.extractLsb' 25 1 := by
    ext i hi
    simp [Nat.lt_one_iff.mp hi]
  rw [hbit, BitVec.extractLsb'_append_extractLsb'_eq_extractLsb' (show 25 = 8 + 17 from rfl),
    BitVec.extractLsb'_append_extractLsb'_eq_extractLsb' (show 8 = 0 + 8 from rfl), BitVec.extractLsb'_eq_self]

theorem encode_write_fields (a : Addr) (v : Byte) :
    (HostAccess.encode (.write a v)).getLsbD 25 = true ∧ (HostAccess.encode (.write a v)).extractLsb' 8 17 = a ∧
    (HostAccess.encode (.write a v)).extractLsb' 0 8 = v :=
  listingFields_append true a v

theorem encode_read_fields (a : Addr) :
    (HostAccess.encode (.read a)).getLsbD 25 = false ∧ (HostAccess.encode (.read a)).extractLsb' 8 17 = a ∧
    (HostAccess.encode (.read a)).extractLsb' 0 8 = 0 :=
  listingFields_append false a 0

theorem decodeAccess_encode (x : HostAccess) : decodeAccess x.encode = some x := by
  cases x with
  | read a =>
    obtain ⟨hw, ha, hv⟩ := encode_read_fields a
    simp only [decodeAccess, hw, ha, hv, if_true, Bool.false_eq_true, if_false]
  | write a v =>
    obtain ⟨hw, ha, hv⟩ := encode_write_fields a v
    simp only [decodeAccess, hw, ha, hv, if_true]

/-- A word that decodes to an access has that access's fields, so it is that access's word. -/
theorem eq_encode_of_decodeAccess {t : BitVec 26} {x : HostAccess} (h : decodeAccess t = some x) : t = x.encode := by
  have ht := append_listingFields t
  unfold decodeAccess at h
  split at h
  · next hw =>
    injection h with h
    rw [hw] at ht
    rw [← h]
    exact ht.symm
  · next hw =>
    split at h
    · next hv =>
      injection h with h
      rw [eq_false_of_ne_true hw, hv] at ht
      rw [← h]
      exact ht.symm
    · cases h

/-! ### The digits of a listing word -/

theorem digitValue_hexDigit : ∀ n < 16, digitValue (hexDigit n) = some n := by decide

theorem mapM_digitValue_hexDigit (ds : List Nat) (h : ∀ d ∈ ds, d < 16) :
    (ds.map hexDigit).mapM digitValue = some ds := by
  induction ds with
  | nil => rfl
  | cons d ds ih =>
    obtain ⟨hd, hds⟩ := List.forall_mem_cons.mp h
    simp [digitValue_hexDigit d hd, ih hds]

/-- A non-empty word of hex digits reads as the number it writes. -/
theorem digits_hexDigit (d : Nat) (ds : List Nat) (h : ∀ x ∈ d :: ds, x < 16) :
    digits 16 ((d :: ds).map hexDigit) = some ((d :: ds).foldl (fun n x => 16 * n + x) 0) := by
  have hall : (d :: ds).all (· < 16) = true := by simpa using h
  simp only [digits, mapM_digitValue_hexDigit _ h, hall, if_true]

/-- The `k` lowest digits of a number in a base, the highest first, write it modulo `base ^ k`. -/
theorem foldl_lowDigits (base k n : Nat) :
    ((List.range k).map fun i => n / base ^ (k - 1 - i) % base).foldl (fun m x => base * m + x) 0 = n % base ^ k := by
  induction k generalizing n with
  | zero => simp [Nat.mod_one]
  | succ k ih =>
    -- all digits but the last are the `k` lowest digits of `n / base`
    have hshift : ∀ i ∈ List.range k, n / base ^ (k - i) % base = n / base / base ^ (k - 1 - i) % base := by
      intro i hi
      have hik : i < k := List.mem_range.mp hi
      rw [Nat.div_div_eq_div_mul, ← pow_succ', show k - 1 - i + 1 = k - i by omega]
    rw [List.range_succ, List.map_append, List.foldl_append, Nat.add_sub_cancel, List.map_congr_left hshift, ih]
    simp [pow_succ', Nat.mod_mul, Nat.add_comm]

/-- The digits shown for a word read back as the word (30_encoding.md R75). -/
theorem number_listing (t : BitVec 26) : number (listing t) = some t.toNat := by
  have ht : t.toNat % 16 ^ 7 = t.toNat := Nat.mod_eq_of_lt (by have := t.isLt; omega)
  have hdigits : ∀ d ∈ (List.range 7).map fun i => t.toNat / 16 ^ (6 - i) % 16, d < 16 := by
    simp only [List.mem_map]
    rintro _ ⟨i, -, rfl⟩
    exact Nat.mod_lt _ (by decide)
  have hword : (List.range 7).map (fun i => hexDigit (t.toNat / 16 ^ (6 - i) % 16)) =
      ((List.range 7).map fun i => t.toNat / 16 ^ (6 - i) % 16).map hexDigit := by simp
  rw [listing, hword]
  exact (digits_hexDigit _ _ hdigits).trans (congrArg some ((foldl_lowDigits 16 7 t.toNat).trans ht))

/-! ### The accesses of a host-script operation -/

@[simp] theorem wrAt_toNat (a : Nat) (v : Byte) : wrAt a v.toNat = .write (.ofNat 17 a) v := by
  simp [wrAt]

@[simp] theorem wrRun_length (a : Nat) (bs : List Nat) : (wrRun a bs).length = bs.length := by
  induction bs generalizing a with
  | nil => rfl
  | cons b bs ih => simp [wrRun, ih]

theorem wrRun_getElem? (a : Nat) (bs : List Nat) (i : Nat) : (wrRun a bs)[i]? = bs[i]?.map (wrAt (a + i)) := by
  induction bs generalizing a i with
  | nil => rfl
  | cons b bs ih =>
    cases i with
    | zero => rfl
    | succ i => simp [wrRun, ih, Nat.add_right_comm, Nat.add_assoc]

@[simp] theorem rdRun_length (a n : Nat) : (rdRun a n).length = n := by simp [rdRun]

theorem rdRun_getElem? (a : Nat) {n i : Nat} (h : i < n) : (rdRun a n)[i]? = some (rdAt (a + i)) := by
  simp [rdRun, h]

/-- The host addresses of a range inside DATA have 17 bits (30_encoding.md R74). -/
theorem toNat_dataAddr {k n i : Nat} (h : isDataRange k n = true) (hi : i < n) :
    (BitVec.ofNat 17 (0x10000 + k + i)).toNat = 0x10000 + k + i := by
  have hk : k + n ≤ 65536 := by simpa [isDataRange] using h
  exact Nat.mod_eq_of_lt (by omega)

/-- A run of bytes over a range inside DATA writes each byte at its own address. -/
theorem wrRun_in_data {k : Nat} {bs : List Nat} (hk : isDataRange k bs.length = true)
    (hb : ∀ b ∈ bs, isByte b = true) (i : Nat) (h : i < bs.length) :
    ∃ (a : Addr) (v : Byte), (wrRun (0x10000 + k) bs)[i]? = some (.write a v) ∧ a.toNat = 0x10000 + k + i ∧
      v.toNat = bs[i] := by
  have hv : bs[i] < 2 ^ 8 := by simpa [isByte] using hb _ (List.getElem_mem h)
  exact ⟨.ofNat 17 (0x10000 + k + i), .ofNat 8 bs[i], by rw [wrRun_getElem?, List.getElem?_eq_getElem h]; rfl,
    toNat_dataAddr hk h, Nat.mod_eq_of_lt hv⟩

/-- A run of reads over a range inside DATA reads each address. -/
theorem rdRun_in_data {k n : Nat} (hk : isDataRange k n = true) (i : Nat) (h : i < n) :
    ∃ a : Addr, (rdRun (0x10000 + k) n)[i]? = some (.read a) ∧ a.toNat = 0x10000 + k + i :=
  ⟨.ofNat 17 (0x10000 + k + i), rdRun_getElem? _ h, toNat_dataAddr hk h⟩

theorem cmd_expand (i : Instr) : (HostOp.cmd i).expand = [.write 0x00000 (encode i)] := by
  simp [HostOp.expand]

theorem setlen_expand (n : Nat) (h : n < 65536) : ∃ lo hi : Byte,
    (HostOp.setlen n).expand = [.write 0x00002 lo, .write 0x00003 hi] ∧ lo.toNat = n % 256 ∧ hi.toNat = n / 256 := by
  refine ⟨.ofNat 8 (n &&& 0xFF), .ofNat 8 ((n >>> 8) &&& 0xFF), rfl, ?_, ?_⟩
  all_goals
    rw [BitVec.toNat_ofNat, Nat.and_two_pow_sub_one_eq_mod _ 8]
    omega

end Sys2Proof

namespace Sys2Proof.Machine

theorem runCommand_of_illegal {op : Byte} (h : decode op = .illegal op) (s : State) :
    runCommand op s = .next (raise .illegal s) := by simp only [runCommand, h]

end Sys2Proof.Machine
end

section
/-! The obligations about the encodings (30_encoding.md). -/

namespace Sys2Proof.Machine

/-- Settles O1, by the round trip of the decoder; an opcode has 8 bits, so the table's numbering reads it too. -/
theorem encodeThenDecode : Obligations.EncodeThenDecode := by
  refine ⟨fun i _ => ⟨decode_encode i, ?_⟩, rfl, rfl, rfl, rfl, rfl, rfl, rfl, rfl, rfl, rfl, rfl, rfl⟩
  have hlt : (encode i).toNat < 256 := (encode i).isLt
  simp only [decodeTableWord, hlt, and_self, if_true, BitVec.ofNat_toNat, BitVec.setWidth_eq, decode_encode]

/-- Settles O2, by the two ends of the decoder. -/
theorem decoderIsTotal : Obligations.DecoderIsTotal := by
  refine ⟨decode_eq_command_iff, decode_eq_illegal_iff, command_or_illegal, ?_⟩
  simp only [beq_eq_decide, decode_eq_illegal_iff]
  exact listedIllegal_count

/-- Settles O3: the rows of the map have the fields of R68, and the two decoders agree in each group and outside. -/
theorem fieldDecoderAgrees : Obligations.FieldDecoderAgrees := by
  refine ⟨?_, ?_, upperHalf_encode, by decide, rfl, rfl, rfl, rfl, decodeByFields_eq_decode⟩
  · intro i
    cases i <;> decide
  · intro i
    cases i <;> decide

/-- Settles O4: a word is its fields put together, and its digits are its lowest seven in base 16. -/
theorem listingWordFields : Obligations.ListingWordFields := by
  exact ⟨encode_write_fields, encode_read_fields,
    fun t x => ⟨eq_encode_of_decodeAccess, fun h => h ▸ decodeAccess_encode x⟩,
    fun t => ⟨by simp [listing], number_listing t⟩, cmd_expand .enc, by decide, by decide⟩

/-- Settles O5: the fixed rows by evaluation, and a range of DATA by the run of accesses over it. -/
theorem pseudoOperationsExpand : Obligations.PseudoOperationsExpand := by
  refine ⟨cmd_expand, setlen_expand, fun b0 b1 b2 b3 => by simp [HostOp.expand, wrRun], rfl, rfl, rfl, rfl, rfl,
    fun k bytes h => ?_, fun k n b h => ?_, fun k n h => ?_⟩
  · obtain ⟨hk, hb⟩ : isDataRange k bytes.length = true ∧ ∀ b ∈ bytes, isByte b = true := by
      simpa [HostOp.wellFormed] using h
    exact ⟨wrRun_length _ _, wrRun_in_data hk hb⟩
  · obtain ⟨hk, hb⟩ : isDataRange k n = true ∧ isByte b = true := by simpa [HostOp.wellFormed] using h
    refine ⟨(wrRun_length _ _).trans List.length_replicate, fun i hi => ?_⟩
    have hrun := wrRun_in_data (bs := List.replicate n b) (by rwa [List.length_replicate])
      (fun x hx => by rwa [List.eq_of_mem_replicate hx]) i (by rwa [List.length_replicate])
    rwa [List.getElem_replicate] at hrun
  · exact ⟨rdRun_length _ _, rdRun_in_data h⟩

/-- Settles O7: an illegal byte written to CMD raises E_ILLEGAL, and the bytes R70 lists are the illegal ones. -/
theorem illegalOpcodeOnlyReports : Obligations.IllegalOpcodeOnlyReports := by
  refine ⟨fun s op rest hp hop => ?_, listedIllegal_count, fun op hop => ?_⟩
  · rw [step_write_cmd hp, runCommand_of_illegal ((decode_eq_illegal_iff op).mpr hop)]
    rfl
  · exact (command_or_illegal op).resolve_right fun h => hop ((decode_eq_illegal_iff op).mp h)

end Sys2Proof.Machine
end

section
/-! SUPPORT. The AES block encryptor (41_aes.md), said once: the bytes of each step of a round, what each step reads of
a build, and the block that AESBLK reads and writes. -/

namespace Sys2Proof.Machine

/-! ### The bytes of the steps of a round -/

@[simp] theorem Block.get_tabulate (f : Fin 16 → Byte) (i : Fin 16) : (Block.tabulate f).get i = f i := by
  fin_cases i <;> rfl

theorem subBytes_get (bld : Build) (b : Block) (i : Fin 16) : (subBytes bld b).get i = bld.sbox.byteAt (b.get i) :=
  Block.get_tabulate _ i

theorem addRoundKey_get (bld : Build) (r i : Fin 16) (b : Block) :
    (addRoundKey bld r b).get i = b.get i ^^^ (bld.keySchedule.get r).get i :=
  Block.get_tabulate _ i

/-- The place in a block of row `r` in column `c` (41_aes.md R81). -/
def place (c r : Fin 4) : Fin 16 := ⟨4 * c.val + r.val, by omega⟩

/-- Row `r` comes from `r` columns further on (41_aes.md R84). -/
theorem shiftRows_get (o : Block) (c r : Fin 4) : (shiftRows o).get (place c r) = o.get (place (c + r) r) := by
  fin_cases c <;> fin_cases r <;> rfl

/-- Each row of a column is mixed of its own old byte and the three that follow around the column (41_aes.md R86). -/
theorem mixColumns_get (b : Block) (c r : Fin 4) :
    (mixColumns b).get (place c r) =
      mixByte (b.get (place c r)) (b.get (place c (r + 1))) (b.get (place c (r + 2))) (b.get (place c (r + 3))) := by
  fin_cases c <;> fin_cases r <;> rfl

/-! ### Doubling -/

/-- A byte shifted right arithmetically by 7 is its bit 7 in every place (41_aes.md R85). -/
theorem sshiftRight_seven (x : Byte) : x.sshiftRight 7 = if x.getLsbD 7 then 0xFF else 0x00 := by
  have hbits : ∀ (i : Nat) (hi : i < 8), (x.sshiftRight 7)[i] = x.getLsbD 7 := fun i hi => by
    rw [BitVec.getElem_sshiftRight]
    split
    · next h => simp [show i = 0 by omega]
    · exact BitVec.msb_eq_getLsbD_last x
  ext i hi
  rw [hbits i hi]
  cases x.getLsbD 7 with
  | false => simp
  | true => exact (BitVec.getElem_allOnes i hi).symm

/-- The form of 41_aes.md R85 that masks 0x1B instead of choosing it. -/
theorem gmul_eq_sshiftRight (x : Byte) : gmul x = (x <<< 1) ^^^ (0x1B &&& x.sshiftRight 7) := by
  rw [gmul, sshiftRight_seven]
  split <;> rfl

/-! ### What the encryptor reads of a build -/

/-- `sub_bytes` reads SBOX alone (41_aes.md R83). -/
theorem subBytes_congr {x y : Build} (h : x.sbox = y.sbox) : subBytes x = subBytes y := by
  funext b
  simp only [subBytes, h]

/-- `add_round_key` reads its own round key alone (41_aes.md R87). -/
theorem addRoundKey_congr {x y : Build} {r : Fin 16} (h : x.keySchedule.get r = y.keySchedule.get r) :
    addRoundKey x r = addRoundKey y r := by
  funext b
  simp only [addRoundKey, roundKey, h]

theorem fullRounds_ne_fifteen : ∀ r ∈ fullRounds, r ≠ 15 := by decide

/-- `aes_encrypt` reads SBOX and the round keys 0 to 14 (41_aes.md R82, R89). -/
theorem aesEncrypt_congr {x y : Build} (hsbox : x.sbox = y.sbox)
    (hkey : ∀ r : Fin 16, r ≠ 15 → x.keySchedule.get r = y.keySchedule.get r) : aesEncrypt x = aesEncrypt y := by
  have hround : ∀ b, ∀ r ∈ fullRounds, aesRound x b r = aesRound y b r := fun b r hr => by
    rw [aesRound, aesRound, subBytes_congr hsbox, addRoundKey_congr (hkey r (fullRounds_ne_fifteen r hr))]
  funext b
  rw [aesEncrypt, aesEncrypt, aesFinalRound, aesFinalRound, List.foldl_ext _ _ _ hround, subBytes_congr hsbox,
    addRoundKey_congr (hkey 0 (by decide)), addRoundKey_congr (hkey 14 (by decide))]

/-- The thirteen full rounds are numbered 1 to 13 (41_aes.md R82). -/
theorem fullRounds_eq_map : fullRounds = (List.range 13).map fun r => Fin.ofNat 16 (r + 1) := rfl

/-! ### The block of AESBLK -/

/-- The block DATA[0..16) as a command that starts now would read it (41_aes.md R88). -/
def State.block (s : State) : Block := Block.ofBytes (readData 0 16 s).1

theorem block_mayRead (s : State) : s.mayRead 0 s.block.toList := by
  rw [State.block, Block.toList_ofBytes _ (readData_length 0 16 s)]
  exact readData_mayRead 0 16 s

theorem mapBlock_holds (f : Block → Block) (s : State) : (mapBlock f s).holds 0 (f s.block).toList :=
  writeData_holds 0 _ _

/-- The block of a state that holds the bytes of a block is that block. -/
theorem block_eq_of_holds {s : State} {b : Block} (h : s.holds 0 b.toList) : s.block = b := by
  have hread : (readData 0 16 s).1 = b.toList := by
    have := readData_eq_of_holds 0 b.toList s h
    rwa [Vector.length_toList] at this
  apply Vector.toList_inj.mp
  rw [State.block, Block.toList_ofBytes _ (readData_length 0 16 s), hread]

/-- The example of 41_aes.md R88. -/
theorem aesEncrypt_default_zero :
    aesEncrypt defaultBuild (Vector.replicate 16 0x00) =
      #v[0x01, 0x62, 0x24, 0x5F, 0x02, 0x43, 0x43, 0xE2, 0xF7, 0xC0, 0xF9, 0x57, 0x27, 0x7C, 0x44, 0x3E] := by
  decide +kernel

theorem exec_aesblk (s : State) : exec .aesblk s = .next (succeed (mapBlock (aesEncrypt s.build) s)) := rfl

end Sys2Proof.Machine
end

section
/-! The obligations about AES (41_aes.md). -/

namespace Sys2Proof.Machine

/-- Settles O24: every step of every round reads SBOX or a round key below 15. -/
theorem aesReadsSboxAndKeyOnly : Obligations.AesReadsSboxAndKeyOnly := by
  intro x y b hsbox hkey
  rw [aesEncrypt_congr hsbox hkey]

/-- Settles O25: AESBLK maps the block it reads, which for the rule's example is the zero block. -/
theorem aesblkEncryptsBlock : Obligations.AesblkEncryptsBlock := by
  refine ⟨rfl, fun s => ?_, fun s hsbox hkey hzero => ?_⟩
  · exact ⟨_, s.block, exec_aesblk s, block_mayRead s, mapBlock_holds _ s, mapBlock_sameDataFrom _ s,
      ⟨rfl, rfl, rfl, rfl, rfl, rfl, rfl⟩, rfl⟩
  · have hblock : s.block = Vector.replicate 16 0x00 := block_eq_of_holds hzero
    have haes : aesEncrypt s.build = aesEncrypt defaultBuild := aesEncrypt_congr hsbox fun r _ => by rw [hkey]; rfl
    have hholds := mapBlock_holds (aesEncrypt s.build) s
    rw [(congr haes hblock).trans aesEncrypt_default_zero] at hholds
    exact ⟨_, exec_aesblk s, hholds⟩

/-- Settles O21: the full rounds are numbered 1 to 13. -/
theorem aesRoundStructure : Obligations.AesRoundStructure := by
  intro bld b
  rw [aesEncrypt, fullRounds_eq_map, List.foldl_map]
  rfl

/-- Settles O22, by the bytes of each step. -/
theorem aesStepsBytewise : Obligations.AesStepsBytewise := by
  refine ⟨subBytes_get, fun o c r => ?_, fun b c => ?_, addRoundKey_get⟩
  · exact shiftRows_get o c r
  · exact ⟨mixColumns_get b c 0, mixColumns_get b c 1, mixColumns_get b c 2, mixColumns_get b c 3⟩

/-- Settles O23: bit 7 fills the arithmetic shift. -/
theorem gmulDoubles : Obligations.GmulDoubles := by
  exact ⟨fun x => by rw [gmul, BitVec.truncate_eq_setWidth, BitVec.setWidth_eq], gmul_eq_sshiftRight, by decide⟩

end Sys2Proof.Machine
end

section
/-! SUPPORT. Maple whitening (42_maple.md), said once: the two byte steps of a pass and what undoes them, the loops and
passes undone, the remembered bytes of a pass by index, and the commands on the payload. -/

namespace Sys2Proof.Machine

/-! ### The byte steps of a pass -/

/-- Rotating right undoes rotating left, for every count. -/
theorem ror8_rol8 (b : Byte) (c : Nat) : ror8 (rol8 b c) c = b := by
  rw [rol8_mod, ror8_mod]
  exact ror8_rol8_small ⟨c % 8, Nat.mod_lt _ (by decide)⟩ b

/-- The byte a pass remembers (42_maple.md R105, R106): the byte it meets rotated by `k`, plus the counter, XORed with
the byte remembered before. -/
def remembered (k : Nat) (remember datalen b : Byte) : Byte := (rol8 b k + datalen) ^^^ remember

/-- The byte of which a pass remembers `c` (42_maple.md R107, R108). -/
def recovered (k : Nat) (remember datalen c : Byte) : Byte := ror8 ((c ^^^ remember) - datalen) k

theorem recovered_remembered (k : Nat) (r d b : Byte) : recovered k r d (remembered k r d b) = b := by
  show ror8 (((rol8 b k + d) ^^^ r ^^^ r) - d) k = b
  rw [BitVec.xor_assoc, BitVec.xor_self, BitVec.xor_zero, BitVec.add_sub_cancel, ror8_rol8]

theorem remembered_recovered (k : Nat) (r d c : Byte) : remembered k r d (recovered k r d c) = c := by
  show (rol8 (ror8 ((c ^^^ r) - d) k) k + d) ^^^ r = c
  rw [rol8_ror8, BitVec.sub_add_cancel, BitVec.xor_assoc, BitVec.xor_self, BitVec.xor_zero]

/-- The byte the forward pass makes of the byte it remembers (42_maple.md R105). -/
def forwardOut (datalen c : Byte) : Byte := ~~~(ror8 c datalen.toNat) + 0x48

/-- The byte remembered for a byte the forward pass made (42_maple.md R108). -/
def forwardIn (datalen b : Byte) : Byte := rol8 (~~~(b - 0x48)) datalen.toNat

theorem forwardIn_forwardOut (d c : Byte) : forwardIn d (forwardOut d c) = c := by
  show rol8 (~~~(~~~(ror8 c d.toNat) + 0x48 - 0x48)) d.toNat = c
  rw [BitVec.add_sub_cancel, BitVec.not_not, rol8_ror8]

theorem forwardOut_forwardIn (d b : Byte) : forwardOut d (forwardIn d b) = b := by
  show ~~~(ror8 (rol8 (~~~(b - 0x48)) d.toNat) d.toNat) + 0x48 = b
  rw [ror8_rol8, BitVec.not_not, BitVec.sub_add_cancel]

/-- The byte the reverse pass makes of the byte it remembers (42_maple.md R106). -/
def reverseOut (c : Byte) : Byte := ror8 (c ^^^ 0x13) 3

/-- The byte remembered for a byte the reverse pass made (42_maple.md R107). -/
def reverseIn (b : Byte) : Byte := rol8 b 3 ^^^ 0x13

theorem reverseIn_reverseOut (c : Byte) : reverseIn (reverseOut c) = c := by
  show rol8 (ror8 (c ^^^ 0x13) 3) 3 ^^^ 0x13 = c
  rw [rol8_ror8_three, BitVec.xor_assoc, BitVec.xor_self, BitVec.xor_zero]

theorem reverseOut_reverseIn (b : Byte) : reverseOut (reverseIn b) = b := by
  show ror8 (rol8 b 3 ^^^ 0x13 ^^^ 0x13) 3 = b
  rw [BitVec.xor_assoc, BitVec.xor_self, BitVec.xor_zero, ror8_rol8_three]

/-! ### One turn of each loop -/

theorem forwardLoop_cons (r d b : Byte) (bs : List Byte) :
    forwardLoop r d (b :: bs) = forwardOut d (remembered 3 r d b) :: forwardLoop (remembered 3 r d b) (d - 1) bs := rfl

theorem reverseLoop_cons (r d b : Byte) (bs : List Byte) :
    reverseLoop r d (b :: bs) = reverseOut (remembered 4 r d b) :: reverseLoop (remembered 4 r d b) (d - 1) bs := rfl

theorem unforwardLoop_cons (r d b : Byte) (bs : List Byte) :
    unforwardLoop r d (b :: bs) = recovered 3 r d (forwardIn d b) :: unforwardLoop (forwardIn d b) (d - 1) bs := rfl

theorem unreverseLoop_cons (r d b : Byte) (bs : List Byte) :
    unreverseLoop r d (b :: bs) = recovered 4 r d (reverseIn b) :: unreverseLoop (reverseIn b) (d - 1) bs := rfl

/-! ### The loops undone

Two loops that remember the same byte at each turn stay in step. -/

theorem unforwardLoop_forwardLoop (r d : Byte) (bs : List Byte) : unforwardLoop r d (forwardLoop r d bs) = bs := by
  induction bs generalizing r d with
  | nil => rfl
  | cons b bs ih => rw [forwardLoop_cons, unforwardLoop_cons, forwardIn_forwardOut, recovered_remembered, ih]

theorem forwardLoop_unforwardLoop (r d : Byte) (bs : List Byte) : forwardLoop r d (unforwardLoop r d bs) = bs := by
  induction bs generalizing r d with
  | nil => rfl
  | cons b bs ih => rw [unforwardLoop_cons, forwardLoop_cons, remembered_recovered, forwardOut_forwardIn, ih]

theorem unreverseLoop_reverseLoop (r d : Byte) (bs : List Byte) : unreverseLoop r d (reverseLoop r d bs) = bs := by
  induction bs generalizing r d with
  | nil => rfl
  | cons b bs ih => rw [reverseLoop_cons, unreverseLoop_cons, reverseIn_reverseOut, recovered_remembered, ih]

theorem reverseLoop_unreverseLoop (r d : Byte) (bs : List Byte) : reverseLoop r d (unreverseLoop r d bs) = bs := by
  induction bs generalizing r d with
  | nil => rfl
  | cons b bs ih => rw [unreverseLoop_cons, reverseLoop_cons, remembered_recovered, reverseOut_reverseIn, ih]

/-! ### The passes undone

A pass keeps the length, so the pass that undoes it starts with the same counter. -/

theorem unforwardPass_forwardPass (bs : List Byte) : unforwardPass (forwardPass bs) = bs := by
  show unforwardLoop 0 (passStart (forwardPass bs).length) (forwardPass bs) = bs
  rw [forwardPass_length]
  exact unforwardLoop_forwardLoop _ _ bs

theorem forwardPass_unforwardPass (bs : List Byte) : forwardPass (unforwardPass bs) = bs := by
  show forwardLoop 0 (passStart (unforwardPass bs).length) (unforwardPass bs) = bs
  rw [unforwardPass_length]
  exact forwardLoop_unforwardLoop _ _ bs

theorem reverse_reversePass (bs : List Byte) :
    (reversePass bs).reverse = reverseLoop 0 (passStart bs.length) bs.reverse :=
  List.reverse_reverse _

theorem reverse_unreversePass (bs : List Byte) :
    (unreversePass bs).reverse = unreverseLoop 0 (passStart bs.length) bs.reverse :=
  List.reverse_reverse _

theorem unreversePass_reversePass (bs : List Byte) : unreversePass (reversePass bs) = bs := by
  show (unreverseLoop 0 (passStart (reversePass bs).length) (reversePass bs).reverse).reverse = bs
  rw [reversePass_length, reverse_reversePass, unreverseLoop_reverseLoop, List.reverse_reverse]

theorem reversePass_unreversePass (bs : List Byte) : reversePass (unreversePass bs) = bs := by
  show (reverseLoop 0 (passStart (unreversePass bs).length) (unreversePass bs).reverse).reverse = bs
  rw [unreversePass_length, reverse_unreversePass, reverseLoop_unreverseLoop, List.reverse_reverse]

theorem repeatPass_eq_iterate (f : List Byte → List Byte) (k : Nat) (bs : List Byte) :
    repeatPass f k bs = f^[k] bs := by
  induction k generalizing bs with
  | zero => rfl
  | succ k ih => exact ih (f bs)

/-- What undoes one pass undoes `k` of them with `k` of its own. -/
theorem repeatPass_leftInverse {f g : List Byte → List Byte} (h : Function.LeftInverse g f) (k : Nat)
    (bs : List Byte) : repeatPass g k (repeatPass f k bs) = bs := by
  rw [repeatPass_eq_iterate, repeatPass_eq_iterate]
  exact h.iterate k bs

theorem mapleDecrypt_mapleEncrypt (bs : List Byte) : mapleDecrypt (mapleEncrypt bs) = bs :=
  repeatPass_leftInverse (fun x => by simp only [unreversePass_reversePass, unforwardPass_forwardPass]) _ bs

theorem mapleEncrypt_mapleDecrypt (bs : List Byte) : mapleEncrypt (mapleDecrypt bs) = bs :=
  repeatPass_leftInverse (fun x => by simp only [forwardPass_unforwardPass, reversePass_unreversePass]) _ bs

/-! ### The remembered bytes of a pass, by index -/

/-- The byte a loop that rotates by `k` remembers at its turn `i` (42_maple.md R105, R106). -/
def rememberedAt (k : Nat) (remember datalen : Byte) : List Byte → Nat → Byte
  | [], _          => remember
  | b :: _, 0      => remembered k remember datalen b
  | b :: bs, i + 1 => rememberedAt k (remembered k remember datalen b) (datalen - 1) bs i

theorem rememberedAt_zero (k : Nat) (r d b : Byte) (bs : List Byte) :
    rememberedAt k r d (b :: bs) 0 = remembered k r d b := rfl

theorem rememberedAt_succ (k : Nat) (r d b : Byte) (bs : List Byte) (i : Nat) :
    rememberedAt k r d (b :: bs) (i + 1) = rememberedAt k (remembered k r d b) (d - 1) bs i := rfl

theorem counter_sub_zero (d : Byte) : d - BitVec.ofNat 8 0 = d := BitVec.sub_zero d

/-- A counter that has gone down by 1 and then by `i` has gone down by `i + 1`. -/
theorem counter_sub_succ (d : Byte) (i : Nat) : d - 1 - BitVec.ofNat 8 i = d - BitVec.ofNat 8 (i + 1) := by
  rw [BitVec.sub_sub, Nat.add_comm, BitVec.ofNat_add]
  rfl

/-- The remembered bytes by their recurrence: each is made with the one before it. -/
theorem rememberedAt_eq (k : Nat) (r d : Byte) (bs : List Byte) (i : Nat) (h : i < bs.length) :
    rememberedAt k r d bs i =
      remembered k (if i = 0 then r else rememberedAt k r d bs (i - 1)) (d - BitVec.ofNat 8 i) bs[i] := by
  induction bs generalizing r d i with
  | nil => exact absurd h (Nat.not_lt_zero i)
  | cons b bs ih =>
    cases i with
    | zero => rw [rememberedAt_zero, counter_sub_zero, if_pos rfl, List.getElem_cons_zero]
    | succ i =>
      rw [rememberedAt_succ, ih _ _ i (Nat.lt_of_succ_lt_succ h), counter_sub_succ]
      cases i <;> rfl

theorem forwardLoop_getElem? (r d : Byte) (bs : List Byte) (i : Nat) (h : i < bs.length) :
    (forwardLoop r d bs)[i]? = some (forwardOut (d - BitVec.ofNat 8 i) (rememberedAt 3 r d bs i)) := by
  induction bs generalizing r d i with
  | nil => exact absurd h (Nat.not_lt_zero i)
  | cons b bs ih =>
    rw [forwardLoop_cons]
    cases i with
    | zero => rw [List.getElem?_cons_zero, counter_sub_zero, rememberedAt_zero]
    | succ i => rw [List.getElem?_cons_succ, ih _ _ i (Nat.lt_of_succ_lt_succ h), counter_sub_succ, rememberedAt_succ]

theorem reverseLoop_getElem? (r d : Byte) (bs : List Byte) (i : Nat) (h : i < bs.length) :
    (reverseLoop r d bs)[i]? = some (reverseOut (rememberedAt 4 r d bs i)) := by
  induction bs generalizing r d i with
  | nil => exact absurd h (Nat.not_lt_zero i)
  | cons b bs ih =>
    rw [reverseLoop_cons]
    cases i with
    | zero => rfl
    | succ i => rw [List.getElem?_cons_succ, ih _ _ i (Nat.lt_of_succ_lt_succ h), rememberedAt_succ]

/-- The counter of a pass over `n` bytes at its turn `i` (42_maple.md R103). -/
theorem passStart_sub {n i : Nat} (h : i ≤ n) : passStart n - BitVec.ofNat 8 i = BitVec.ofNat 8 (n - i) := by
  obtain ⟨m, rfl⟩ := Nat.exists_eq_add_of_le' h
  show BitVec.ofNat 8 (m + i) - BitVec.ofNat 8 i = BitVec.ofNat 8 (m + i - i)
  rw [BitVec.ofNat_add, BitVec.add_sub_cancel, Nat.add_sub_cancel]

/-- The counter has 8 bits, so it repeats every 256 turns (42_maple.md R109). -/
theorem ofNat_add_256 (k : Nat) : BitVec.ofNat 8 (k + 256) = BitVec.ofNat 8 k :=
  BitVec.eq_of_toNat_eq (by simp)

theorem forwardPass_getElem? (bs : List Byte) (k : Nat) (h : k < bs.length) :
    (forwardPass bs)[k]? =
      some (forwardOut (BitVec.ofNat 8 (bs.length - k)) (rememberedAt 3 0 (passStart bs.length) bs k)) := by
  rw [← passStart_sub h.le]
  exact forwardLoop_getElem? _ _ bs k h

/-- The byte the reverse pass remembers at index `i`, which it meets at its turn `n - 1 - i` (42_maple.md R106). -/
def reverseRememberedAt (bs : List Byte) (i : Nat) : Byte :=
  rememberedAt 4 0 (passStart bs.length) bs.reverse (bs.length - 1 - i)

/-- The remembered bytes of the reverse pass by their recurrence, from the last index down. -/
theorem reverseRememberedAt_eq (bs : List Byte) (i : Nat) (h : i < bs.length) :
    reverseRememberedAt bs i =
      remembered 4 (if i + 1 = bs.length then 0 else reverseRememberedAt bs (i + 1)) (BitVec.ofNat 8 (i + 1))
        bs[i] := by
  have hturn : bs.length - 1 - i < bs.reverse.length := by
    rw [List.length_reverse]
    omega
  have hcount : passStart bs.length - BitVec.ofNat 8 (bs.length - 1 - i) = BitVec.ofNat 8 (i + 1) := by
    rw [passStart_sub (by omega), show bs.length - (bs.length - 1 - i) = i + 1 by omega]
  have hbyte : bs.reverse[bs.length - 1 - i] = bs[i] := by
    simp only [List.getElem_reverse, show bs.length - 1 - (bs.length - 1 - i) = i by omega]
  have hfirst : bs.length - 1 - i = 0 ↔ i + 1 = bs.length := by omega
  have hnext : rememberedAt 4 0 (passStart bs.length) bs.reverse (bs.length - 1 - i - 1) =
      reverseRememberedAt bs (i + 1) := congrArg _ (by omega)
  refine (rememberedAt_eq 4 0 _ _ _ hturn).trans ?_
  simp only [hcount, hbyte, hfirst, hnext]

/-- The bytes of the reverse pass, from the bytes it remembers. -/
theorem reversePass_getElem? (bs : List Byte) (i : Nat) (h : i < bs.length) :
    (reversePass bs)[i]? = some (reverseOut (reverseRememberedAt bs i)) := by
  have hturn : bs.length - 1 - i < bs.reverse.length := by
    rw [List.length_reverse]
    omega
  have hlt : i < (reverseLoop 0 (passStart bs.length) bs.reverse).length := by
    rwa [reverseLoop_length, List.length_reverse]
  rw [← List.reverse_reverse (reversePass bs), reverse_reversePass, List.getElem?_reverse hlt,
    reverseLoop_length, List.length_reverse]
  exact reverseLoop_getElem? _ _ _ _ hturn

/-! ### The commands on the payload -/

theorem exec_menc (s : State) : exec .menc s = .next (succeed (mapPayload mapleEncrypt s)) := rfl

theorem exec_mdec (s : State) : exec .mdec s = .next (succeed (mapPayload mapleDecrypt s)) := rfl

theorem execAll_menc_mdec (s : State) :
    execAll [.menc, .mdec] s = .next (succeed (mapPayload mapleDecrypt (succeed (mapPayload mapleEncrypt s)))) :=
  rfl

theorem execAll_mdec_menc (s : State) :
    execAll [.mdec, .menc] s = .next (succeed (mapPayload mapleEncrypt (succeed (mapPayload mapleDecrypt s)))) :=
  rfl

/-- In-place work on the payload leaves every register alone. -/
theorem sameRegisters_mapPayload (f : List Byte → List Byte) (s : State) :
    sameRegisters s (succeed (mapPayload f s)) :=
  ⟨rfl, rfl, rfl, rfl, rfl, rfl, rfl⟩

/-- The payload reads LEN, DATA and the count of draws alone. -/
theorem payload_congr {s u : State} (hl : s.len = u.len) (hd : s.data = u.data) (hn : s.draws = u.draws) :
    s.payload = u.payload := by
  show (s.data.readRange 0 s.len.toNat s.draws).1 = (u.data.readRange 0 u.len.toNat u.draws).1
  rw [hl, hd, hn]

/-- In-place work on the payload, and then work that undoes it, leaves every byte that held a value as it was. -/
theorem mapPayload_restores {f g : List Byte → List Byte} (hf : ∀ bs, (f bs).length = bs.length)
    (hg : ∀ bs, (g bs).length = bs.length) (hgf : ∀ bs, g (f bs) = bs) {s : State} {a : Nat} {v : Byte}
    (hv : s.data.lookup a = some v) :
    (succeed (mapPayload g (succeed (mapPayload f s)))).data.lookup a = some v := by
  rw [succeed_data]
  by_cases ha : a < s.len.toNat
  · have hholds : (mapPayload g (succeed (mapPayload f s))).holds 0 s.payload := by
      have := mapPayload_holds g (succeed (mapPayload f s))
      rwa [show (succeed (mapPayload f s)).payload = f s.payload from payload_mapPayload f hf s, hgf] at this
    have hlt : a < s.payload.length := by rwa [payload_length]
    rw [← Nat.zero_add a] at hv ⊢
    rw [hholds a hlt, payload_mayRead s a hlt v hv]
  · have hle : s.len.toNat ≤ a := Nat.le_of_not_lt ha
    rw [mapPayload_sameDataFrom g hg (succeed (mapPayload f s)) a hle, succeed_data,
      mapPayload_sameDataFrom f hf s a hle, hv]

end Sys2Proof.Machine
end

section
/-! The obligations about Maple whitening (42_maple.md). -/

namespace Sys2Proof.Machine

/-- Settles O29: each turn of a loop is undone, so each pass is, so three rounds of both are. -/
theorem mapleDecryptInvertsEncrypt : Obligations.MapleDecryptInvertsEncrypt := by
  exact fun bs => ⟨mapleEncrypt_length bs, mapleDecrypt_length bs, mapleDecrypt_mapleEncrypt bs,
    mapleEncrypt_mapleDecrypt bs⟩

/-- Settles O26: truncating a byte to 8 bits changes nothing, and the counts below 8 stand for all. -/
theorem byteRotations : Obligations.ByteRotations := by
  refine ⟨fun b c => ?_, fun b c => ?_, ror8_rol8⟩
  · rw [BitVec.truncate_eq_setWidth, BitVec.setWidth_eq]
    rfl
  · rw [BitVec.truncate_eq_setWidth, BitVec.setWidth_eq]
    rfl

/-- Settles O27: the loop meets index k at its turn k. -/
theorem forwardPassBytewise : Obligations.ForwardPassBytewise := by
  refine fun bs => ⟨forwardPass_length bs, rememberedAt 3 0 (passStart bs.length) bs, fun k h => ⟨?_, ?_⟩⟩
  · rw [rememberedAt_eq _ _ _ _ k h, passStart_sub h.le]
    rfl
  · exact forwardPass_getElem? bs k h

/-- Settles O28: the loop meets index i at its turn n - 1 - i. -/
theorem reversePassBytewise : Obligations.ReversePassBytewise := by
  exact fun bs => ⟨reversePass_length bs, reverseRememberedAt bs, fun i h =>
    ⟨reverseRememberedAt_eq bs i h, reversePass_getElem? bs i h⟩⟩

/-- Settles O30: MENC maps the payload it reads; a counter of 0 rotates by no place. -/
theorem mencWhitensPayload : Obligations.MencWhitensPayload := by
  refine ⟨rfl, fun s => ?_, rfl, fun b => rfl, fun n k => by rw [ofNat_add_256], by decide⟩
  exact ⟨_, s.payload, exec_menc s, payload_length s, payload_mayRead s, mapPayload_holds mapleEncrypt s,
    mapPayload_sameDataFrom mapleEncrypt mapleEncrypt_length s, sameRegisters_mapPayload mapleEncrypt s, rfl⟩

/-- Settles O31: MDEC maps the payload it reads, and each of the two commands undoes the other's work in place. -/
theorem mdecDewhitensPayload : Obligations.MdecDewhitensPayload := by
  refine ⟨rfl, fun s => ?_, fun s => ⟨_, execAll_menc_mdec s, fun a v hv => ?_⟩,
    fun s => ⟨_, execAll_mdec_menc s, fun a v hv => ?_⟩, by decide, by decide⟩
  · exact ⟨_, s.payload, exec_mdec s, payload_length s, payload_mayRead s, mapPayload_holds mapleDecrypt s,
      mapPayload_sameDataFrom mapleDecrypt mapleDecrypt_length s, sameRegisters_mapPayload mapleDecrypt s, rfl⟩
  · exact mapPayload_restores mapleEncrypt_length mapleDecrypt_length mapleDecrypt_mapleEncrypt hv
  · exact mapPayload_restores mapleDecrypt_length mapleEncrypt_length mapleEncrypt_mapleDecrypt hv

/-- Settles O32: both commands write to DATA what they compute of the payload, and the two payloads are equal. -/
theorem mapleReadsPayloadOnly : Obligations.MapleReadsPayloadOnly := by
  intro i s u t w hi hl hd hn ht hw
  have hpayload : s.payload = u.payload := payload_congr hl hd hn
  obtain ⟨f, hf⟩ : ∃ f, ∀ x, exec i x = .next (succeed (mapPayload f x)) := by
    obtain rfl | rfl := hi
    · exact ⟨mapleEncrypt, exec_menc⟩
    · exact ⟨mapleDecrypt, exec_mdec⟩
  rw [hf] at ht hw
  cases ht
  cases hw
  rw [succeed_data, succeed_data, mapPayload_data, mapPayload_data, hpayload, hd]

end Sys2Proof.Machine
end

section
/-! SUPPORT. The IV shuffle (43_shuffle.md), said once: a four-byte register as a little-endian number, the rotation of
that number, the bytes of `step_arith` as numbers, and one or several SHUF.S. -/

namespace Sys2Proof.Machine

/-! ### A four-byte register as a number -/

/-- The little-endian number of four bytes (20_memory.md R53 (1)). -/
def Quad.toNatLE (q : Quad) : Nat :=
  q.b0.toNat + 256 * q.b1.toNat + 65536 * q.b2.toNat + 16777216 * q.b3.toNat

theorem packLE_eq_append (q : Quad) : q.packLE = q.b3 ++ (q.b2 ++ (q.b1 ++ q.b0)) := by
  ext i hi
  simp only [Quad.packLE, BitVec.getElem_or, BitVec.getElem_shiftLeft, BitVec.getElem_setWidth]
  grind

/-- Of two strings of bits put together, the high one counts in units of the low one's width. -/
theorem toNat_append_eq_add {n w : Nat} (x : BitVec n) (y : BitVec w) :
    (x ++ y).toNat = x.toNat * 2 ^ w + y.toNat := by
  rw [BitVec.toNat_append, ← Nat.shiftLeft_add_eq_or_of_lt y.isLt, Nat.shiftLeft_eq]

theorem packLE_toNat (q : Quad) : q.packLE.toNat = Quad.toNatLE q := by
  rw [packLE_eq_append, Quad.toNatLE]
  simp only [toNat_append_eq_add]
  omega

theorem toNatLE_unpackLE (w : Word) : Quad.toNatLE (Quad.unpackLE w) = w.toNat := by
  have := w.isLt
  simp only [Quad.toNatLE, Quad.unpackLE, BitVec.extractLsb'_toNat, Nat.shiftRight_eq_div_pow]
  omega

/-! ### The two halves of a step -/

/-- The rotation by SHUFFLE_ROTATE keeps the low 29 bits above the three that leave at the top (43_shuffle.md R118). -/
theorem rol32_three_toNat (w : Word) : (rol32 w 3).toNat = 8 * w.toNat % 2 ^ 32 + w.toNat / 2 ^ 29 := by
  have hlow : w.toNat <<< 3 % 2 ^ 32 = (w.toNat % 2 ^ 29) <<< 3 := by
    simp only [Nat.shiftLeft_eq]
    omega
  have hhigh : w.toNat >>> 29 < 2 ^ 3 := by
    have := w.isLt
    rw [Nat.shiftRight_eq_div_pow]
    omega
  rw [rol32, BitVec.toNat_or, BitVec.toNat_shiftLeft, BitVec.toNat_ushiftRight, hlow,
    ← Nat.shiftLeft_add_eq_or_of_lt hhigh, Nat.shiftLeft_eq, Nat.shiftRight_eq_div_pow]
  omega

theorem toNatLE_stepRotate (m : Quad) :
    Quad.toNatLE (stepRotate m) = 8 * Quad.toNatLE m % 2 ^ 32 + Quad.toNatLE m / 2 ^ 29 := by
  rw [stepRotate, toNatLE_unpackLE, rol32_three_toNat, packLE_toNat]

/-- A difference of bytes, as a sum modulo 256. -/
theorem toNat_byte_sub (x y : Byte) : (x - y).toNat = (x.toNat + (256 - y.toNat)) % 256 := by
  rw [BitVec.toNat_sub, Nat.add_comm]

/-- A sum of bytes less a byte: the sum need not be reduced before the difference. -/
theorem toNat_byte_add_sub (x y z : Byte) :
    (x + y - z).toNat = (x.toNat + y.toNat + (256 - z.toNat)) % 256 := by
  rw [toNat_byte_sub, BitVec.toNat_add, Nat.mod_add_mod]

/-! ### The commands -/

/-- SHUF.S in a session (43_shuffle.md R120). -/
theorem exec_shufS_of_init {s : State} (h : s.status.init = true) :
    exec .shufS s = .next { s with sendIv := shuffle s.build s.sendIv, status := s.status.ok } :=
  requireInit_of_init h

/-- SHUF.R in a session (43_shuffle.md R121). -/
theorem exec_shufR_of_init {s : State} (h : s.status.init = true) :
    exec .shufR s = .next { s with recvIv := shuffle s.build s.recvIv, status := s.status.ok } :=
  requireInit_of_init h

/-- SHUF.S leaves the session and the tables as they are, so the next one shuffles on. -/
theorem execAll_replicate_shufS (k : Nat) {s : State} (h : s.status.init = true) :
    ∃ t, execAll (List.replicate k .shufS) s = .next t ∧ t.sendIv = (shuffle s.build)^[k] s.sendIv := by
  induction k generalizing s with
  | zero => exact ⟨s, rfl, rfl⟩
  | succ k ih =>
    rw [List.replicate_succ, execAll, exec_shufS_of_init h, Function.iterate_succ_apply]
    exact ih h

end Sys2Proof.Machine
end

section
/-! The obligations about the shuffle (43_shuffle.md). -/

namespace Sys2Proof.Machine

/-- Settles O33: a byte's sums and differences are those of numbers modulo 256, its exclusive or that of numbers. -/
theorem stepArithModulo256 : Obligations.StepArithModulo256 := by
  intro bld m v T r
  refine ⟨toNat_byte_add_sub _ _ _, ?_, ?_, toNat_byte_add_sub _ _ _⟩
  · exact (toNat_byte_sub _ _).trans (by rw [BitVec.toNat_xor])
  · exact (BitVec.toNat_xor _ _).trans (by rw [BitVec.toNat_add])

/-- Settles O34: packing and unpacking keep the number, and the rotation between them shifts it. -/
theorem stepRotateIsRol32 : Obligations.StepRotateIsRol32 := by
  exact toNatLE_stepRotate

/-- Settles O35: one SHUF.S is one shuffle, in a session that it leaves open for the next. -/
theorem shufSendShufflesSendIv : Obligations.ShufSendShufflesSendIv := by
  exact ⟨fun bld iv => rfl, rfl, fun s h => exec_shufS_of_init h, fun s h => requireInit_of_not_init h,
    fun k s h => execAll_replicate_shufS k h, by decide⟩

/-- Settles O36: SHUF.R is one shuffle of RECV_IV, behind the check for a session. -/
theorem shufRecvShufflesRecvIv : Obligations.ShufRecvShufflesRecvIv := by
  exact ⟨rfl, fun s h => exec_shufR_of_init h, fun s h => requireInit_of_not_init h, by decide⟩

end Sys2Proof.Machine
end

section
/-! SUPPORT. `aes_encrypt` followed step by step (41_aes.md R82): an encryption of known bytes is checked one step at a
time, which keeps small what a check has to hold at once, and the blocks that the examples of OFB encrypt. -/

namespace Sys2Proof.Machine

/-! ### An encryption and its trace -/

/-- The block of 32 hex digits, byte 0 first. -/
def hexBlock (n : Nat) : Block := Block.tabulate fun i => BitVec.ofNat 8 (n >>> (8 * (15 - i.val)))

/-- The steps of `aes_encrypt` in order (41_aes.md R82). -/
def aesSteps (bld : Build) : List (Block → Block) :=
  addRoundKey bld 0 :: fullRounds.map (fun r b => aesRound bld b r) ++ [aesFinalRound bld]

theorem aesEncrypt_eq_foldl (bld : Build) (b : Block) :
    aesEncrypt bld b = (aesSteps bld).foldl (fun c f => f c) b := rfl

/-- The numbers stand for the blocks that the steps, one after another, make of the block. -/
def Traced : Block → List (Block → Block) → List Nat → Prop
  | _, [], []           => True
  | b, f :: fs, n :: ns => f b = hexBlock n ∧ Traced (hexBlock n) fs ns
  | _, _, _             => False

theorem Traced.nil (b : Block) : Traced b [] [] := trivial

theorem Traced.cons {b : Block} {f : Block → Block} {fs : List (Block → Block)} {n : Nat} {ns : List Nat}
    (step : f b = hexBlock n) (rest : Traced (hexBlock n) fs ns) : Traced b (f :: fs) (n :: ns) := ⟨step, rest⟩

theorem Traced.foldl_eq {b : Block} {fs : List (Block → Block)} {ns : List Nat} (h : Traced b fs ns) :
    fs.foldl (fun c f => f c) b = (ns.map hexBlock).getLastD b := by
  induction fs generalizing b ns with
  | nil =>
    cases ns with
    | nil => rfl
    | cons n ns => exact h.elim
  | cons f fs ih =>
    cases ns with
    | nil => exact h.elim
    | cons n ns =>
      obtain ⟨step, rest⟩ := h
      rw [List.foldl_cons, step, ih rest, List.map_cons, List.getLastD_cons]

/-- An encryption ends in the last block of its trace. -/
theorem aesEncrypt_of_traced {bld : Build} {b : Block} {ns : List Nat} (h : Traced b (aesSteps bld) ns) :
    aesEncrypt bld b = (ns.map hexBlock).getLastD b := by
  rw [aesEncrypt_eq_foldl, h.foldl_eq]

/-! ### The blocks the OFB examples encrypt, with the default tables -/

/-- Block 0 of the keystream of IV 01 02 03 04. -/
theorem aesEncrypt_default_tile :
    aesEncrypt defaultBuild (tile ⟨0x01, 0x02, 0x03, 0x04⟩) = hexBlock 0xF0EEA4D24895D63FC0F5C08D91A266A3 := by
  refine aesEncrypt_of_traced (ns := [
    0x120203040902030407020304B5020304, 0x825845B31D908DF0B25449A7F3445997, 0x4475E565ECACDDC6DE5C1C2F6E015A98,
    0x402098CFA135CF44EBDAF49227085FAF, 0x09F1E9C2DD539EC3BE34E062357C5EEE, 0x2B5DB94B0B4A0925B80F04AFFB0ECB33,
    0xE992EB9925403B43689D241F3C9B3F84, 0x9BBC88521531BF2BA8195F9446B0C6F5, 0x1CB9D3776BACDC35AD4992118A24907B,
    0xDAF9D7B70B33BA395BE41D43BAD89728, 0xEB0B620E4D507293798085D0A2359E32, 0xC184FC6655F1F26304BCEF0825C1CBF6,
    0x9A6F8016EED1132106BCF1DA134A0169, 0xAEAEDE6A7F6F41F69023E60430B1DE80, 0xF0EEA4D24895D63FC0F5C08D91A266A3]) ?_
  repeat refine .cons (by as_aux_lemma => rfl) ?_
  exact .nil _

/-- Block 1 of the same keystream. -/
theorem aesEncrypt_default_twice :
    aesEncrypt defaultBuild (hexBlock 0xF0EEA4D24895D63FC0F5C08D91A266A3) =
      hexBlock 0xF878C17871A25E581AB824CE6B7F9576 := by
  refine aesEncrypt_of_traced (ns := [
    0xE3EEA4D24095D63FC6F5C08D25A266A3, 0xF79A4AB7AA3E4DBF326E835EFF330725, 0xBF643B98EC1721FCB9B42C608F78F8D1,
    0x50A5A38607B1F06A194305BC64C241F3, 0xFF04C24E7D24F547AEEE7B4ED4AA1287, 0x8C83AF17BCB620D246E50DF1C1DF13E5,
    0x545982B472AEDBDAFE3AFC5047AEECA0, 0xF26D961E4A5CD609F344691D8F9611CA, 0x15ED024F608E66A2156489834B2096B0,
    0xE6D20014471605B9FDAE9DDFE5B99A0E, 0xB04B6A25AFD9E10ED370C9B5977E2DE5, 0xC76215B782B2EEAACF328840F42E7E4A,
    0xD35F39719707CC8E9321F05C94FA66D4, 0x835B69BC3CD1D009C0E33C3D0C67AD0A, 0xF878C17871A25E581AB824CE6B7F9576]) ?_
  repeat refine .cons (by as_aux_lemma => rfl) ?_
  exact .nil _

/-- Block 0 of the keystream of the shuffled IV. -/
theorem aesEncrypt_default_tile_shuffled :
    aesEncrypt defaultBuild (tile ⟨0x7B, 0xBF, 0xA4, 0x56⟩) = hexBlock 0x80EA33C3239F95BD7A66115C1ACB3B87 := by
  refine aesEncrypt_of_traced (ns := [
    0x68BFA45673BFA4567DBFA456CFBFA456, 0x713F17F7EAF5DDB23685AD22BDF0D8BD, 0xF2C99979C71A09B43D59481DF2385B07,
    0x671E2082554D45B71C7690E2BA745A6C, 0x63C4CEB503496DBDEAA403D122351232, 0x34AEA704F60AD0CBBAC1666F8EA7BA85,
    0x7D0ED6614F52529F6BCE3F1153840BDE, 0x58C820A443D86E74DF554817DD1A3D7D, 0x953501FC4F5851D9CA69C8056ECEDE68,
    0x783463E28395B61AE7E98B8186B2384E, 0x8482646EFFC2945B873544E4ED5FFAEE, 0xAB5A224B5BEC4C72BA6AEA91C861732F,
    0x1014BCA1C6F111993051F0098F0EA433, 0xE7B4273ADBAA9C227A428E4A73579D93, 0x80EA33C3239F95BD7A66115C1ACB3B87]) ?_
  repeat refine .cons (by as_aux_lemma => rfl) ?_
  exact .nil _

end Sys2Proof.Machine
end

section
/-! SUPPORT. The OFB stream (44_ofb.md), said once: what the loops leave after any number of bytes, the whole of
`aes_ofb` as one exclusive or with a stream of bytes by position, the count in closed form, and the OFB stage of either
direction. -/

namespace Sys2Proof.Machine

/-! ### A list of bytes and a stream -/

/-- Each byte XORed with the stream's byte at its position. -/
def xorStream (k : Nat → Byte) (bs : List Byte) : List Byte := bs.mapIdx fun p b => b ^^^ k p

theorem xorStream_cons (k : Nat → Byte) (b : Byte) (bs : List Byte) :
    xorStream k (b :: bs) = (b ^^^ k 0) :: xorStream (fun p => k (p + 1)) bs :=
  List.mapIdx_cons

theorem xorStream_take_append_drop (k : Nat → Byte) (n : Nat) (bs : List Byte) :
    xorStream k (bs.take n) ++ xorStream (fun p => k (n + p)) (bs.drop n) = xorStream k bs := by
  induction n generalizing k bs with
  | zero => simp [xorStream]
  | succ n ih =>
    cases bs with
    | nil => rfl
    | cons b bs =>
      rw [List.take_succ_cons, List.drop_succ_cons, xorStream_cons, xorStream_cons, List.cons_append,
        ← ih (fun p => k (p + 1)) bs]
      simp only [Nat.add_right_comm]

theorem xorStream_getElem? (k : Nat → Byte) {bs : List Byte} {p : Nat} (h : p < bs.length) :
    (xorStream k bs)[p]? = some (bs[p] ^^^ k p) := by
  rw [xorStream, List.getElem?_mapIdx, List.getElem?_eq_getElem h, Option.map_some]

theorem xorStream_take (k : Nat → Byte) (n : Nat) (bs : List Byte) :
    xorStream k (bs.take n) = (xorStream k bs).take n :=
  List.ext_getElem? fun p => by by_cases h : p < n <;> simp [xorStream, h]

theorem xorStream_congr {k l : Nat → Byte} {bs : List Byte} (h : ∀ p < bs.length, k p = l p) :
    xorStream k bs = xorStream l bs :=
  List.mapIdx_eq_mapIdx_iff.mpr fun p hp => by rw [h p hp]

theorem xorStream_xorStream (k : Nat → Byte) (bs : List Byte) : xorStream k (xorStream k bs) = bs := by
  induction bs generalizing k with
  | nil => rfl
  | cons b bs ih => rw [xorStream_cons, xorStream_cons, ih, BitVec.xor_assoc, BitVec.xor_self, BitVec.xor_zero]

/-! ### The inner loop -/

theorem aesIterate_succ (bld : Build) (k : Nat) (b : Block) :
    aesIterate bld (k + 1) b = aesEncrypt bld (aesIterate bld k b) := by
  induction k generalizing b with
  | zero => rfl
  | succ k ih => exact ih (aesEncrypt bld b)

/-- What the inner loop holds before position `x` of a chunk that it entered with `count`: one encryption has been made
for every multiple of 16 below `x` (44_ofb.md R126, R129). -/
def chunkState (bld : Build) (iv : Quad) (count x : Nat) : Block × Nat :=
  (aesIterate bld (blocksOf x) (tile iv), count + blocksOf x)

theorem blocksOf_succ (x : Nat) : blocksOf (x + 1) = x / 16 + 1 := by
  unfold blocksOf
  omega

theorem blocksOf_succ_of_mod_eq {x : Nat} (h : x % 16 = 0) : blocksOf (x + 1) = blocksOf x + 1 := by
  unfold blocksOf
  omega

theorem blocksOf_succ_of_mod_ne {x : Nat} (h : x % 16 ≠ 0) : blocksOf (x + 1) = blocksOf x := by
  unfold blocksOf
  omega

/-- The inner loop encrypts at the multiples of 16. -/
theorem chunkState_succ (bld : Build) (iv : Quad) (count x : Nat) :
    (if x % 16 = 0 then encryptCounted bld (chunkState bld iv count x) else chunkState bld iv count x) =
      chunkState bld iv count (x + 1) := by
  split
  · next h => rw [encryptCounted, chunkState, chunkState, blocksOf_succ_of_mod_eq h, aesIterate_succ, Nat.add_assoc]
  · next h => rw [chunkState, chunkState, blocksOf_succ_of_mod_ne h]

/-- The block the inner loop holds at position `x` gives the keystream's byte there (44_ofb.md R128). -/
theorem chunkState_succ_get (bld : Build) (iv : Quad) (count x : Nat) :
    (chunkState bld iv count (x + 1)).1.get ⟨x % 16, by omega⟩ = keystreamByte bld iv x := by
  rw [chunkState, blocksOf_succ, keystreamByte]

/-- The inner loop from position `x` on: the keystream XORed in, and one encryption for each block begun. -/
theorem ofbChunk_eq (bld : Build) (iv : Quad) (count x : Nat) (bs : List Byte) :
    ofbChunk bld (chunkState bld iv count x) x bs =
      (xorStream (fun p => keystreamByte bld iv (x + p)) bs, chunkState bld iv count (x + bs.length)) := by
  induction bs generalizing x with
  | nil => rfl
  | cons b bs ih =>
    simp only [ofbChunk, chunkState_succ, chunkState_succ_get, ih, xorStream_cons, List.length_cons, Nat.add_zero,
      Nat.add_assoc, Nat.add_comm 1]

/-- The loop over a whole chunk. -/
theorem ofbChunk_zero (bld : Build) (iv : Quad) (count : Nat) (bs : List Byte) :
    ofbChunk bld (tile iv, count) 0 bs =
      (xorStream (keystreamByte bld iv) bs,
        (aesIterate bld (blocksOf bs.length) (tile iv), count + blocksOf bs.length)) := by
  have h := ofbChunk_eq bld iv count 0 bs
  simp only [Nat.zero_add] at h
  exact h

/-! ### The outer loop -/

/-- The position in its chunk of byte `p` of what the outer loop has still to do, when its next chunk has `blockLen`
bytes (44_ofb.md R126). -/
def posFrom (blockLen p : Nat) : Nat := if p < blockLen then p else (p - blockLen) % Config.nextChunk

theorem posFrom_firstChunk : posFrom Config.firstChunk = chunkPos := rfl

theorem posFrom_of_lt {blockLen p : Nat} (h : p < blockLen) : posFrom blockLen p = p := if_pos h

/-- Past its next chunk the outer loop goes on in chunks of NEXT_CHUNK bytes. -/
theorem posFrom_add (blockLen p : Nat) : posFrom blockLen (blockLen + p) = posFrom Config.nextChunk p := by
  unfold posFrom Config.nextChunk
  split <;> split <;> omega

/-- The encryptions the outer loop makes over `n` bytes in a chunk of at most `blockLen` and then `turns` more of at
most NEXT_CHUNK (44_ofb.md R129). -/
def encryptionsFrom (blockLen turns n : Nat) : Nat :=
  blocksOf (min n blockLen) +
    ((List.range turns).map fun k => blocksOf (min Config.nextChunk (n - blockLen - Config.nextChunk * k))).sum

theorem encryptionsFrom_firstChunk (n : Nat) : encryptionsFrom Config.firstChunk n n = naes n := rfl

theorem encryptionsFrom_zero (blockLen turns : Nat) : encryptionsFrom blockLen turns 0 = 0 := by
  simp [encryptionsFrom, blocksOf]

theorem encryptionsFrom_succ (blockLen turns n : Nat) :
    encryptionsFrom blockLen (turns + 1) n =
      blocksOf (min n blockLen) + encryptionsFrom Config.nextChunk turns (n - blockLen) := by
  rw [encryptionsFrom, encryptionsFrom, List.range_succ_eq_map, List.map_cons, List.sum_cons, List.map_map,
    Nat.mul_zero, Nat.sub_zero, Nat.min_comm Config.nextChunk]
  simp only [Function.comp_def, Nat.mul_succ, Nat.sub_sub, Nat.add_comm Config.nextChunk, Nat.add_assoc]

/-- One turn of the outer loop; with no byte left it does nothing. -/
theorem ofbChunks_succ (bld : Build) (iv : Quad) (turns blockLen count : Nat) (bs : List Byte) :
    ofbChunks bld iv (turns + 1) blockLen count bs =
      (xorStream (keystreamByte bld iv) (bs.take blockLen) ++
          (ofbChunks bld iv turns Config.nextChunk (count + blocksOf (min bs.length blockLen)) (bs.drop blockLen)).1,
        (ofbChunks bld iv turns Config.nextChunk (count + blocksOf (min bs.length blockLen)) (bs.drop blockLen)).2) := by
  cases bs with
  | nil => cases turns <;> simp [ofbChunks, xorStream, blocksOf]
  | cons b bs => simp only [ofbChunks, ofbChunk_zero, List.length_take, Nat.min_comm blockLen]

/-- The outer loop over all bytes it has still to do, by induction on its turns. -/
theorem ofbChunks_eq (bld : Build) (iv : Quad) {turns blockLen : Nat} (count : Nat) {bs : List Byte}
    (hturns : bs.length ≤ turns) (hpos : 0 < blockLen) :
    ofbChunks bld iv turns blockLen count bs =
      (xorStream (fun p => keystreamByte bld iv (posFrom blockLen p)) bs,
        count + encryptionsFrom blockLen turns bs.length) := by
  induction turns generalizing blockLen count bs with
  | zero =>
    obtain rfl := List.length_eq_zero_iff.mp (Nat.le_zero.mp hturns)
    rw [List.length_nil, encryptionsFrom_zero]
    rfl
  | succ turns ih =>
    have hrest : (bs.drop blockLen).length ≤ turns := by
      rw [List.length_drop]
      omega
    have hchunk : xorStream (keystreamByte bld iv) (bs.take blockLen) =
        xorStream (fun p => keystreamByte bld iv (posFrom blockLen p)) (bs.take blockLen) :=
      xorStream_congr fun p hp => by rw [posFrom_of_lt (hp.trans_le (List.length_take_le _ _))]
    rw [ofbChunks_succ, ih _ hrest (by decide), hchunk, encryptionsFrom_succ, List.length_drop, Nat.add_assoc,
      ← xorStream_take_append_drop _ blockLen bs]
    simp only [posFrom_add]

/-- `aes_ofb` in closed form, with its count (44_ofb.md R128, R129). -/
theorem ofbLoop_eq (bld : Build) (iv : Quad) (bs : List Byte) :
    ofbLoop bld iv bs = (xorStream (fun p => keystreamByte bld iv (chunkPos p)) bs, naes bs.length) := by
  rw [ofbLoop, ofbChunks_eq bld iv 0 le_rfl (by decide), posFrom_firstChunk, encryptionsFrom_firstChunk, Nat.zero_add]

theorem aesOfb_eq (bld : Build) (iv : Quad) (bs : List Byte) :
    aesOfb bld iv bs = xorStream (fun p => keystreamByte bld iv (chunkPos p)) bs := by
  rw [aesOfb, ofbLoop_eq]

theorem aesOfbCalls_eq (bld : Build) (iv : Quad) (bs : List Byte) : aesOfbCalls bld iv bs = naes bs.length := by
  rw [aesOfbCalls, ofbLoop_eq]

theorem aesOfb_getElem? (bld : Build) (iv : Quad) {bs : List Byte} {p : Nat} (h : p < bs.length) :
    (aesOfb bld iv bs)[p]? = some (bs[p] ^^^ keystreamByte bld iv (chunkPos p)) := by
  rw [aesOfb_eq, xorStream_getElem? _ h]

/-- The bytes of a shorter payload are the first of a longer one's. -/
theorem aesOfb_take (bld : Build) (iv : Quad) (n : Nat) (bs : List Byte) :
    aesOfb bld iv (bs.take n) = (aesOfb bld iv bs).take n := by
  rw [aesOfb_eq, aesOfb_eq, xorStream_take]

/-- The exclusive or with one stream undoes itself (44_ofb.md R133). -/
theorem aesOfb_aesOfb (bld : Build) (iv : Quad) (bs : List Byte) : aesOfb bld iv (aesOfb bld iv bs) = bs := by
  rw [aesOfb_eq, aesOfb_eq, xorStream_xorStream]

/-- Byte 0 and byte 1456 stand at the head of their chunks, so one keystream byte serves both (44_ofb.md R130). -/
theorem aesOfb_chunk_heads (bld : Build) (iv : Quad) (bs : List Byte) (h : bs.length = 1457) :
    ∃ k : Byte, (aesOfb bld iv bs)[0]? = some (bs[0]! ^^^ k) ∧ (aesOfb bld iv bs)[1456]? = some (bs[1456]! ^^^ k) := by
  have hhead : 0 < bs.length := by omega
  have hnext : 1456 < bs.length := by omega
  refine ⟨keystreamByte bld iv 0, ?_, ?_⟩
  · rw [aesOfb_getElem? bld iv hhead, getElem!_pos bs 0 hhead, show chunkPos 0 = 0 from rfl]
  · rw [aesOfb_getElem? bld iv hnext, getElem!_pos bs 1456 hnext, show chunkPos 1456 = 0 from rfl]

/-! ### Chunks and the count of encryptions -/

theorem chunkPos_of_lt {x : Nat} (h : x < 1456) : chunkPos x = x := if_pos h

/-- Position `x` of chunk `k + 1` (44_ofb.md R129). -/
theorem chunkPos_of_chunk_succ (k : Nat) {x : Nat} (h : x < 1460) : chunkPos (1456 + 1460 * k + x) = x := by
  unfold chunkPos Config.firstChunk Config.nextChunk
  split <;> omega

/-- Over the later chunks every full one takes 92 encryptions, and the last takes one for each block begun. -/
theorem encryptionsFrom_nextChunk {turns n : Nat} (h : n ≤ turns) :
    encryptionsFrom Config.nextChunk turns n = 92 * (n / 1460) + blocksOf (n % 1460) := by
  induction turns generalizing n with
  | zero =>
    obtain rfl := Nat.le_zero.mp h
    rfl
  | succ turns ih =>
    have hrest : n - Config.nextChunk ≤ turns := by
      unfold Config.nextChunk
      omega
    rw [encryptionsFrom_succ, ih hrest]
    unfold blocksOf Config.nextChunk
    omega

/-- `naes` without a sum. -/
theorem naes_eq (n : Nat) :
    naes n = blocksOf (min n 1456) + (92 * ((n - 1456) / 1460) + blocksOf ((n - 1456) % 1460)) := by
  cases n with
  | zero => rfl
  | succ n =>
    have hrest : n + 1 - Config.firstChunk ≤ n := by
      unfold Config.firstChunk
      omega
    rw [← encryptionsFrom_firstChunk, encryptionsFrom_succ, encryptionsFrom_nextChunk hrest]

/-! ### The examples of 44_ofb.md R130, R131 and R133 -/

/-- On at most two blocks the stream is the tiled IV encrypted once and twice. -/
theorem aesOfb_of_length_le {bld : Build} {iv : Quad} {b₁ b₂ : Block} (h₁ : aesEncrypt bld (tile iv) = b₁)
    (h₂ : aesEncrypt bld b₁ = b₂) {bs : List Byte} (hlen : bs.length ≤ 32) :
    aesOfb bld iv bs = List.zipWith (· ^^^ ·) bs (b₁.toList ++ b₂.toList) := by
  subst h₁ h₂
  refine List.ext_getElem (by simp [hlen]) fun p hp _ => ?_
  rw [aesOfb_length] at hp
  rw [List.getElem_zipWith, ← Option.some_inj, ← List.getElem?_eq_getElem, aesOfb_getElem? _ _ hp,
    chunkPos_of_lt (by omega)]
  by_cases hfirst : p < 16
  · simp [keystreamByte, Nat.div_eq_of_lt hfirst, Nat.mod_eq_of_lt hfirst, hfirst, aesIterate, Vector.get_eq_getElem]
  · have hdiv : p / 16 = 1 := by omega
    have hmod : p % 16 = p - 16 := by omega
    simp [keystreamByte, hdiv, hmod, List.getElem_append, hfirst, aesIterate, Vector.get_eq_getElem]

theorem aesOfb_default_zeros :
    aesOfb defaultBuild ⟨0x01, 0x02, 0x03, 0x04⟩ (List.replicate 17 0x00) =
      [0xF0, 0xEE, 0xA4, 0xD2, 0x48, 0x95, 0xD6, 0x3F, 0xC0, 0xF5, 0xC0, 0x8D, 0x91, 0xA2, 0x66, 0xA3, 0xF8] := by
  rw [aesOfb_of_length_le aesEncrypt_default_tile aesEncrypt_default_twice (by decide)]
  decide

/-- The payload of up to 17 bytes 00 becomes the head of the keystream. -/
theorem aesOfb_default_zeros_take (n : Nat) :
    aesOfb defaultBuild ⟨0x01, 0x02, 0x03, 0x04⟩ ((List.replicate 17 0x00).take n) =
      [0xF0, 0xEE, 0xA4, 0xD2, 0x48, 0x95, 0xD6, 0x3F, 0xC0, 0xF5, 0xC0, 0x8D, 0x91, 0xA2, 0x66, 0xA3, 0xF8].take n := by
  rw [aesOfb_take, aesOfb_default_zeros]

theorem shuffle_default : shuffle defaultBuild ⟨0x01, 0x02, 0x03, 0x04⟩ = ⟨0x7B, 0xBF, 0xA4, 0x56⟩ := by decide

/-- The keystream of the shuffled IV begins with another byte than 0xF0. -/
theorem aesOfb_default_shuffled : aesOfb defaultBuild ⟨0x7B, 0xBF, 0xA4, 0x56⟩ [0xF0] = [0x70] := by
  rw [aesOfb_of_length_le aesEncrypt_default_tile_shuffled rfl (by decide)]
  rfl

/-- A second pass from the shuffled IV does not undo the first (44_ofb.md R133). -/
theorem aesOfb_shuffle_not_restores :
    aesOfb defaultBuild (shuffle defaultBuild ⟨0x01, 0x02, 0x03, 0x04⟩)
      (aesOfb defaultBuild ⟨0x01, 0x02, 0x03, 0x04⟩ [0x00]) ≠ [0x00] := by
  have hfirst : aesOfb defaultBuild ⟨0x01, 0x02, 0x03, 0x04⟩ [0x00] = [0xF0] := aesOfb_default_zeros_take 1
  rw [shuffle_default, hfirst, aesOfb_default_shuffled]
  decide

/-! ### The commands -/

/-- OFB.S in a session (44_ofb.md R130). -/
theorem exec_ofbS_of_init {s : State} (h : s.status.init = true) :
    exec .ofbS s = .next (succeed (ofbPayload .send s)) :=
  requireInit_of_init h

/-- OFB.R in a session (44_ofb.md R131). -/
theorem exec_ofbR_of_init {s : State} (h : s.status.init = true) :
    exec .ofbR s = .next (succeed (ofbPayload .recv s)) :=
  requireInit_of_init h

theorem ofbPayload_data (d : Dir) (s : State) :
    (ofbPayload d s).data = (mapPayload (aesOfb s.build (s.iv d)) s).data := by
  cases d <;> rfl

theorem ofbPayload_holds (d : Dir) (s : State) : (ofbPayload d s).holds 0 (aesOfb s.build (s.iv d) s.payload) := by
  rw [State.holds, ofbPayload_data]
  exact mapPayload_holds _ s

/-- In-place work on the payload, and then, in a state with the same LEN and the bytes it left, work that undoes it. -/
theorem mapPayload_restores_of_data_eq {f g : List Byte → List Byte} (hf : ∀ bs, (f bs).length = bs.length)
    (hg : ∀ bs, (g bs).length = bs.length) (hgf : ∀ bs, g (f bs) = bs) {s u : State} (hlen : u.len = s.len)
    (hdata : u.data = (mapPayload f s).data) {a : Nat} {v : Byte} (hv : s.data.lookup a = some v) :
    (mapPayload g u).data.lookup a = some v := by
  have hpayload : u.payload = f s.payload := by
    refine payload_eq_of_holds u _ (by rw [hf, payload_length, hlen]) ?_
    rw [State.holds, hdata]
    exact mapPayload_holds f s
  have hrestored := mapPayload_restores hf hg hgf hv
  rw [succeed_data, mapPayload_data g, succeed_data, ← hdata] at hrestored
  rw [mapPayload_data, hpayload, ← payload_mapPayload f hf s]
  exact hrestored

end Sys2Proof.Machine
end

section
/-! The obligations about OFB (44_ofb.md). -/

namespace Sys2Proof.Machine

/-- Settles O37: `aes_ofb` is the exclusive or with the keystream by position in the chunk. -/
theorem ofbKeystreamClosedForm : Obligations.OfbKeystreamClosedForm := by
  exact fun bld iv bs => ⟨aesOfb_length bld iv bs, fun p h => aesOfb_getElem? bld iv h⟩

/-- Settles O38: the loops count one encryption for each block begun in a chunk, and `naes` has a form without a sum. -/
theorem aesCountFormula : Obligations.AesCountFormula := by
  refine ⟨fun x => chunkPos_of_lt, fun k x => chunkPos_of_chunk_succ k, fun bld iv count bs => ?_,
    fun bld iv bs => ⟨rfl, aesOfbCalls_eq bld iv bs⟩, fun n => rfl, ?_⟩
  · rw [ofbChunk_zero]
    rfl
  · simp only [naes_eq]
    decide

/-- Settles O39: in a session OFB.S is the OFB stage of the send direction, without one it raises E_NOT_INIT. -/
theorem ofbSendEncryptsPayload : Obligations.OfbSendEncryptsPayload := by
  refine ⟨rfl, fun s h => ?_, fun s h => requireInit_of_not_init h, aesOfb_chunk_heads,
    aesOfb_default_zeros_take 16, shuffle_default⟩
  exact ⟨_, s.payload, exec_ofbS_of_init h, payload_length s, payload_mayRead s, ofbPayload_holds .send s,
    ofbPayload_sameDataFrom .send s, rfl, ⟨rfl, rfl, rfl, rfl, rfl, rfl, rfl⟩, rfl⟩

/-- Settles O40: in a session OFB.R is the OFB stage of the receive direction, without one it raises E_NOT_INIT. -/
theorem ofbRecvEncryptsPayload : Obligations.OfbRecvEncryptsPayload := by
  refine ⟨rfl, fun s h => ?_, fun s h => requireInit_of_not_init h, aesOfb_chunk_heads,
    aesOfb_default_zeros, shuffle_default⟩
  exact ⟨_, s.payload, exec_ofbR_of_init h, payload_length s, payload_mayRead s, ofbPayload_holds .recv s,
    ofbPayload_sameDataFrom .recv s, rfl, ⟨rfl, rfl, rfl, rfl, rfl, rfl, rfl⟩, rfl⟩

/-- Settles O41: both commands are the exclusive or with the keystream of one IV; the shuffled IV has another. -/
theorem ofbTwiceRestoresPayload : Obligations.OfbTwiceRestoresPayload := by
  refine ⟨aesOfb_aesOfb, fun s t u hs hu htables ht hiv hlen hdata => ?_, _, _, aesOfb_shuffle_not_restores⟩
  rw [exec_ofbS_of_init hs] at ht
  cases ht
  refine ⟨rfl, _, exec_ofbR_of_init hu, ?_, fun a v hv => ?_⟩
  · rw [succeed_recvIv, ofbPayload_recv, shuffle_sameTables htables, hiv]
  · rw [succeed_data, ofbPayload_data, iv_recv, aesOfb_sameTables htables, hiv]
    exact mapPayload_restores_of_data_eq (aesOfb_length _ _) (aesOfb_length _ _) (aesOfb_aesOfb _ _) hlen hdata hv

end Sys2Proof.Machine
end

section
/-! SUPPORT. The frame header (45_header.md), said once: the bytes MKHDR writes, the length CHKLEN reads as the exclusive
or of two halves, how the one undoes the other, and the two commands. -/

namespace Sys2Proof.Machine

/-! ### The two halves of a header -/

/-- The version term as bytes: MAPLE_VERSION fits the low one (45_header.md R141). -/
theorem versionTerm_eq_append (iv : Quad) : versionTerm iv = iv.b3 ++ (iv.b2 ^^^ 0x53) := by
  have hmaple : Config.mapleVersion = 0#8 ++ (0x53 : Byte) := rfl
  rw [versionTerm, ← BitVec.setWidth_append_eq_shiftLeft_setWidth_or, BitVec.setWidth_eq, hmaple, BitVec.xor_append,
    BitVec.xor_zero]

theorem createHeader_eq (iv : Quad) (n : Half) :
    createHeader iv n = ⟨iv.b2 ^^^ 0x53, iv.b3, iv.b2 ^^^ 0x53 ^^^ loByte n, iv.b3 ^^^ hiByte n⟩ := by
  have hlo (a : Half) : loByte (a ^^^ n) = loByte a ^^^ loByte n := BitVec.extractLsb'_xor
  have hhi (a : Half) : hiByte (a ^^^ n) = hiByte a ^^^ hiByte n := BitVec.extractLsb'_xor
  simp only [createHeader, versionTerm_eq_append, hlo, hhi, loByte_append, hiByte_append]

theorem packLE_eq_halves (q : Quad) : q.packLE = (q.b3 ++ q.b2) ++ (q.b1 ++ q.b0) :=
  (packLE_eq_append q).trans BitVec.append_assoc'

/-- CHKLEN's shift and mask select the two halves of the packed word (45_header.md R144). -/
theorem checkLength_eq (hdr : Quad) : checkLength hdr = (hdr.b3 ++ hdr.b2) ^^^ (hdr.b1 ++ hdr.b0) := by
  have hmask : (0xFFFF : Word).setWidth 16 = BitVec.allOnes 16 := rfl
  simp only [checkLength, packLE_eq_halves]
  rw [BitVec.setWidth_xor, BitVec.setWidth_ushiftRight_eq_extractLsb, BitVec.extractLsb'_append_eq_left,
    BitVec.setWidth_and, hmask, BitVec.and_allOnes, BitVec.setWidth_append_eq_right]

theorem hiByte_append_loByte (n : Half) : hiByte n ++ loByte n = n := by
  rw [hiByte, loByte, BitVec.extractLsb'_append_extractLsb'_eq_extractLsb' (show 8 = 0 + 8 from rfl),
    BitVec.extractLsb'_eq_self]

/-- Both headers the machine writes consist of two halves `a` and `b`. -/
theorem checkLength_of_halves (a b : Half) : checkLength ⟨loByte a, hiByte a, loByte b, hiByte b⟩ = b ^^^ a := by
  rw [checkLength_eq, hiByte_append_loByte, hiByte_append_loByte]

/-- The version term stands in both halves and cancels (45_header.md R147). -/
theorem checkLength_createHeader (iv : Quad) (n : Half) : checkLength (createHeader iv n) = n := by
  calc checkLength (createHeader iv n) = versionTerm iv ^^^ n ^^^ versionTerm iv := checkLength_of_halves _ _
    _ = n := by rw [BitVec.xor_comm, ← BitVec.xor_assoc, BitVec.xor_self, BitVec.zero_xor]

/-- The upper half of a null-mode header is 0 (45_header.md R146, R147). -/
theorem checkLength_nullHeader (n : Half) : checkLength (nullHeader n) = n := by
  calc checkLength (nullHeader n) = 0#16 ^^^ n := checkLength_of_halves n 0
    _ = n := BitVec.zero_xor

/-! ### The commands -/

/-- MKHDR in crypto mode in a session (45_header.md R143). -/
theorem exec_mkhdr_of_init {s : State} (hm : s.build.cryptoMode = .crypto) (h : s.status.init = true) :
    exec .mkhdr s = .next (succeed { s with hdr := createHeader s.sendIv s.len }) := by
  simp only [exec, execMkhdr, hm, requireInit_of_init h]

/-- MKHDR in crypto mode without a session (45_header.md R143). -/
theorem exec_mkhdr_of_not_init {s : State} (hm : s.build.cryptoMode = .crypto) (h : s.status.init = false) :
    exec .mkhdr s = .next (raise .notInit s) := by
  simp only [exec, execMkhdr, hm, requireInit_of_not_init h]

/-- MKHDR in null mode (45_header.md R143). -/
theorem exec_mkhdr_of_null {s : State} (hm : s.build.cryptoMode = .null) :
    exec .mkhdr s = .next (succeed { s with hdr := nullHeader s.len }) := by
  simp only [exec, execMkhdr, hm]

theorem exec_chklen (s : State) : exec .chklen s = .next (succeed { s with len := checkLength s.hdr }) := rfl

/-- CHKLEN reads the header that a MKHDR which ended in success left. -/
theorem execAll_mkhdr_chklen {s : State} {q : Quad} (h : exec .mkhdr s = .next (succeed { s with hdr := q })) :
    execAll [.mkhdr, .chklen] s = .next (succeed (succeed { s with hdr := q, len := checkLength q })) := by
  rw [execAll, h]
  rfl

end Sys2Proof.Machine
end

section
/-! The obligations about the frame header (45_header.md). -/

namespace Sys2Proof.Machine

/-- Settles O42: in a session MKHDR writes the bytes of `create_header`, without one it raises E_NOT_INIT, and in null
mode it writes LEN. -/
theorem mkhdrBuildsHeader : Obligations.MkhdrBuildsHeader := by
  refine ⟨rfl, fun s hm h => ?_, fun s hm h => exec_mkhdr_of_not_init hm h, fun s hm => exec_mkhdr_of_null hm,
    fun s hm h hiv hlen => ⟨_, exec_mkhdr_of_init hm h, (congrArg₂ createHeader hiv hlen).trans (by decide)⟩⟩
  rw [exec_mkhdr_of_init hm h, createHeader_eq]
  rfl

/-- Settles O43: CHKLEN has no case, and `check_length` is the exclusive or of the two halves of HDR. -/
theorem chklenRecoversLength : Obligations.ChklenRecoversLength := by
  refine ⟨rfl, fun s => ?_, fun s h => ⟨_, exec_chklen s, (congrArg checkLength h).trans (by decide)⟩⟩
  rw [exec_chklen, checkLength_eq]
  rfl

/-- Settles O44: MKHDR writes one of the two headers, and CHKLEN reads LEN back from either. -/
theorem headerRoundTrip : Obligations.HeaderRoundTrip := by
  intro s h
  cases hm : s.build.cryptoMode with
  | null => exact ⟨_, execAll_mkhdr_chklen (exec_mkhdr_of_null hm), checkLength_nullHeader s.len⟩
  | crypto =>
    have hinit : s.status.init = true := h.resolve_left (by simp [hm])
    exact ⟨_, execAll_mkhdr_chklen (exec_mkhdr_of_init hm hinit), checkLength_createHeader s.sendIv s.len⟩

end Sys2Proof.Machine
end

section
/-! SUPPORT. The session commands (46_session.md), said once: two in-place passes over the payload as one, ENC and DEC as
one such pass each and the one undoing the other, the pair of blocks that talk to each other, and the handshake INIT
reads. -/

namespace Sys2Proof.Machine

/-! ### Two passes over the payload are one -/

theorem Memory.filter_below_writeRange (m : Memory) (a : Nat) (bs : List Byte) :
    (m.writeRange a bs).filter (fun c => c.1 < a) = m.filter fun c => c.1 < a := by
  have hcells : (Memory.cells a bs).filter (fun c => c.1 < a) = [] :=
    List.filter_eq_nil_iff.mpr fun c hc => by simpa using (Memory.cells_key_range a bs c hc).1
  have habove : m.filter (fun c => decide (c.1 < a) && decide (a + bs.length ≤ c.1)) = [] :=
    List.filter_eq_nil_iff.mpr fun c _ => by
      simp only [Bool.and_eq_true, decide_eq_true_eq]
      omega
  simp [Memory.writeRange, List.filter_append, List.filter_filter, hcells, habove]

theorem Memory.filter_above_writeRange (m : Memory) (a : Nat) (bs : List Byte) :
    (m.writeRange a bs).filter (fun c => a + bs.length ≤ c.1) = m.filter fun c => a + bs.length ≤ c.1 := by
  have hcells : (Memory.cells a bs).filter (fun c => a + bs.length ≤ c.1) = [] :=
    List.filter_eq_nil_iff.mpr fun c hc => by simpa using (Memory.cells_key_range a bs c hc).2
  have hbelow : m.filter (fun c => decide (a + bs.length ≤ c.1) && decide (c.1 < a)) = [] :=
    List.filter_eq_nil_iff.mpr fun c _ => by
      simp only [Bool.and_eq_true, decide_eq_true_eq]
      omega
  simp [Memory.writeRange, List.filter_append, List.filter_filter, hcells, hbelow]

/-- Of two writes of one range only the second is seen. -/
theorem Memory.writeRange_writeRange (m : Memory) (a : Nat) {bs cs : List Byte} (h : cs.length = bs.length) :
    (m.writeRange a bs).writeRange a cs = m.writeRange a cs := by
  rw [Memory.writeRange, h, Memory.filter_below_writeRange, Memory.filter_above_writeRange, ← h, ← Memory.writeRange]

/-- After in-place work every byte of the payload holds a value, so reading it again draws nothing. -/
theorem mapPayload_no_draw (f : List Byte → List Byte) (hf : ∀ bs, (f bs).length = bs.length) (s : State) :
    ((mapPayload f s).data.readRange 0 s.payloadLen (mapPayload f s).draws).2 = (mapPayload f s).draws := by
  refine Memory.readRange_no_draw _ _ _ _ fun i hi => ?_
  rw [mapPayload_holds f s i (by rwa [hf, payload_length]), Option.isSome_some]

/-- In-place work on the payload twice is one pass, also in the draws it takes. -/
theorem mapPayload_mapPayload {f g : List Byte → List Byte} (hf : ∀ bs, (f bs).length = bs.length)
    (hg : ∀ bs, (g bs).length = bs.length) (s : State) :
    mapPayload g (mapPayload f s) = mapPayload (fun bs => g (f bs)) s := by
  have hdata : (mapPayload g (mapPayload f s)).data = s.data.writeRange 0 (g (f s.payload)) := by
    rw [mapPayload_data, mapPayload_data, payload_mapPayload f hf, Memory.writeRange_writeRange _ _ (hg _)]
  have hdraws : (mapPayload g (mapPayload f s)).draws = (mapPayload f s).draws := mapPayload_no_draw f hf s
  -- every other field is that of `s` on both sides
  exact (State.mk.injEq ..).mpr ⟨rfl, rfl, rfl, rfl, rfl, rfl, hdata, hdraws, rfl, rfl⟩

/-- In-place work on the payload of one state, and then, in a state with the same LEN whose payload is what it left,
work that undoes it. -/
theorem mapPayload_restores_of_lookup_eq {f g : List Byte → List Byte} (hf : ∀ bs, (f bs).length = bs.length)
    (hgf : ∀ bs, g (f bs) = bs) {s u : State} (hlen : u.len = s.len)
    (hdata : ∀ i, i < s.len.toNat → u.data.lookup i = (mapPayload f s).data.lookup i) {i : Nat} {v : Byte}
    (hi : i < s.len.toNat) (hv : s.data.lookup i = some v) : (mapPayload g u).data.lookup i = some v := by
  have hread : u.payload = f s.payload := by
    refine payload_eq_of_holds u _ (by rw [hf, payload_length, hlen]) fun k hk => ?_
    have hlt : 0 + k < s.len.toNat := by rwa [Nat.zero_add, ← payload_length s, ← hf]
    rw [hdata _ hlt, mapPayload_holds f s k hk]
  have hholds : (mapPayload g u).holds 0 s.payload := by
    have := mapPayload_holds g u
    rwa [hread, hgf] at this
  have hlt : i < s.payload.length := by rwa [payload_length]
  rw [← Nat.zero_add i] at hv ⊢
  rw [hholds i hlt, payload_mayRead s i hlt v hv]

/-! ### A payload encrypted and decrypted -/

/-- What ENC makes of the payload with an IV (46_session.md R154). -/
def encryptPayload (bld : Build) (iv : Quad) (bs : List Byte) : List Byte := aesOfb bld iv (mapleEncrypt bs)

/-- What DEC makes of the payload with an IV (46_session.md R156). -/
def decryptPayload (bld : Build) (iv : Quad) (bs : List Byte) : List Byte := mapleDecrypt (aesOfb bld iv bs)

@[simp] theorem encryptPayload_length (bld : Build) (iv : Quad) (bs : List Byte) :
    (encryptPayload bld iv bs).length = bs.length := by
  rw [encryptPayload, aesOfb_length, mapleEncrypt_length]

@[simp] theorem decryptPayload_length (bld : Build) (iv : Quad) (bs : List Byte) :
    (decryptPayload bld iv bs).length = bs.length := by
  rw [decryptPayload, mapleDecrypt_length, aesOfb_length]

/-- The stages undone in the opposite order (46_session.md R157). -/
theorem decryptPayload_encryptPayload (bld : Build) (iv : Quad) (bs : List Byte) :
    decryptPayload bld iv (encryptPayload bld iv bs) = bs := by
  rw [decryptPayload, encryptPayload, aesOfb_aesOfb, mapleDecrypt_mapleEncrypt]

/-- The state after ENC in a session (46_session.md R154). -/
def encrypted (s : State) : State :=
  succeed { mapPayload (encryptPayload s.build s.sendIv) s with sendIv := shuffle s.build s.sendIv }

/-- The state after DEC in a session (46_session.md R156). -/
def decrypted (s : State) : State :=
  succeed { mapPayload (decryptPayload s.build s.recvIv) s with recvIv := shuffle s.build s.recvIv }

theorem encrypted_data (s : State) : (encrypted s).data = (mapPayload (encryptPayload s.build s.sendIv) s).data := rfl

theorem decrypted_data (s : State) : (decrypted s).data = (mapPayload (decryptPayload s.build s.recvIv) s).data := rfl

theorem encrypted_holds (s : State) : (encrypted s).holds 0 (encryptPayload s.build s.sendIv s.payload) :=
  mapPayload_holds (encryptPayload s.build s.sendIv) s

theorem decrypted_holds (s : State) : (decrypted s).holds 0 (decryptPayload s.build s.recvIv s.payload) :=
  mapPayload_holds (decryptPayload s.build s.recvIv) s

theorem encrypted_sameDataFrom (s : State) : sameDataFrom s.len.toNat s (encrypted s) :=
  mapPayload_sameDataFrom _ (encryptPayload_length s.build s.sendIv) s

theorem decrypted_sameDataFrom (s : State) : sameDataFrom s.len.toNat s (decrypted s) :=
  mapPayload_sameDataFrom _ (decryptPayload_length s.build s.recvIv) s

/-! ### The commands ENC and DEC -/

theorem exec_of_success {i : Instr} {s : State} (h : commandError i s = none) :
    exec i s = .next (succeed (commandEffect i s.build.cryptoMode s)) := by
  rw [exec_eq_commandResult, commandResult_of_success h]

theorem exec_of_error {i : Instr} {s : State} {e : ErrorName} (h : commandError i s = some e) :
    exec i s = .next (raise e s) := by
  rw [exec_eq_commandResult, commandResult_of_error h]

/-- With a session no command but INIT raises an error (60_exceptions.md R168). -/
theorem exec_of_init {i : Instr} (hi : i ≠ .init) {s : State} (h : s.status.init = true) :
    exec i s = .next (succeed (commandEffect i s.build.cryptoMode s)) :=
  exec_of_success (by simp [commandError, hi, h])

/-- A command that needs a session and finds none (60_exceptions.md R168). -/
theorem exec_of_not_init {i : Instr} (hi : i ≠ .init) {s : State} (hn : needsSession i s.build.cryptoMode = true)
    (h : s.status.init = false) : exec i s = .next (raise .notInit s) :=
  exec_of_error ((if_neg fun hs => hi hs.1).trans (if_pos ⟨hn, h⟩))

/-- ENC in crypto mode in a session: whitening, then the OFB stage (46_session.md R154). -/
theorem exec_enc_stages {s : State} (hm : s.build.cryptoMode = .crypto) (h : s.status.init = true) :
    exec .enc s = .next (succeed (ofbPayload .send (mapPayload mapleEncrypt s))) := by
  rw [exec_of_init (i := .enc) nofun h, hm]
  rfl

/-- DEC in crypto mode in a session: the OFB stage, then de-whitening (46_session.md R156). -/
theorem exec_dec_stages {s : State} (hm : s.build.cryptoMode = .crypto) (h : s.status.init = true) :
    exec .dec s = .next (succeed (mapPayload mapleDecrypt (ofbPayload .recv s))) := by
  rw [exec_of_init (i := .dec) nofun h, hm]
  rfl

/-- The success of a command is overwritten by that of the OFB command after it. -/
theorem succeed_ofbPayload_succeed (d : Dir) (s : State) :
    succeed (ofbPayload d (succeed s)) = succeed (ofbPayload d s) := by
  cases d <;> rfl

/-- ENC in crypto mode in a session, its two stages as one. -/
theorem exec_enc_of_init {s : State} (hm : s.build.cryptoMode = .crypto) (h : s.status.init = true) :
    exec .enc s = .next (encrypted s) := by
  have hstages : mapPayload (aesOfb s.build s.sendIv) (mapPayload mapleEncrypt s) =
      mapPayload (encryptPayload s.build s.sendIv) s := mapPayload_mapPayload mapleEncrypt_length (aesOfb_length _ _) s
  rw [exec_enc_stages hm h, ofbPayload_send, encrypted, ← hstages]
  rfl

/-- DEC in crypto mode in a session, its two stages as one. -/
theorem exec_dec_of_init {s : State} (hm : s.build.cryptoMode = .crypto) (h : s.status.init = true) :
    exec .dec s = .next (decrypted s) := by
  have hstages : mapPayload mapleDecrypt (mapPayload (aesOfb s.build s.recvIv) s) =
      mapPayload (decryptPayload s.build s.recvIv) s := mapPayload_mapPayload (aesOfb_length _ _) mapleDecrypt_length s
  rw [exec_dec_stages hm h, ofbPayload_recv, decrypted, ← hstages]
  rfl

/-- ENC and DEC in null mode change nothing but STATUS.ERR (46_session.md R155). -/
theorem exec_of_null {i : Instr} (hi : i = .enc ∨ i = .dec) {s : State} (hm : s.build.cryptoMode = .null) :
    exec i s = .next (succeed s) := by
  have hn : needsSession i s.build.cryptoMode = false := by
    obtain rfl | rfl := hi <;> rw [hm] <;> rfl
  have heffect : commandEffect i s.build.cryptoMode s = s := by
    obtain rfl | rfl := hi <;> rw [hm] <;> rfl
  rw [exec_eq_commandResult, ← succeed_eq_commandResult (by rintro rfl; simp at hi) hn heffect]

/-- The example of 46_session.md R154, from its whitened bytes on. -/
theorem aesOfb_default_enc_example :
    aesOfb defaultBuild ⟨0x01, 0x02, 0x03, 0x04⟩ [0xE6, 0xF1, 0xF2, 0x36] = [0x16, 0x1F, 0x56, 0xE4] := by
  rw [aesOfb_of_length_le aesEncrypt_default_tile aesEncrypt_default_twice (by decide)]
  decide

/-! ### Two blocks in a session with each other -/

/-- Block `a` may send to block `b` (46_session.md R157): both in crypto mode with a session and the same tables, A's
SEND_IV being B's RECV_IV. -/
def Paired (a b : State) : Prop :=
  a.build.cryptoMode = .crypto ∧ b.build = a.build ∧ a.status.init = true ∧ b.status.init = true ∧
    b.recvIv = a.sendIv

/-- After ENC on one block and DEC on the other the two are paired again, whatever they encrypted and decrypted. -/
theorem paired_next_frame {a b : State} (h : Paired a b) : Paired (encrypted a) (decrypted b) := by
  obtain ⟨hcrypto, hbuild, ha, hb, hiv⟩ := h
  have hshuffle : shuffle b.build b.recvIv = shuffle a.build a.sendIv := by rw [hbuild, hiv]
  exact ⟨hcrypto, hbuild, ha, hb, hshuffle⟩

/-- DEC on a paired block completes. -/
theorem exec_dec_of_paired {a b : State} (h : Paired a b) : exec .dec b = .next (decrypted b) := by
  obtain ⟨hcrypto, hbuild, -, hb, -⟩ := h
  exact exec_dec_of_init (hbuild ▸ hcrypto) hb

/-- DEC gives back the bytes that ENC on the paired block read. -/
theorem decrypted_lookup_of_paired {a b : State} (h : Paired a b) (hlen : b.len = a.len)
    (hdata : ∀ i, i < a.len.toNat → b.data.lookup i = (encrypted a).data.lookup i) {i : Nat} {v : Byte}
    (hi : i < a.len.toNat) (hv : a.data.lookup i = some v) : (decrypted b).data.lookup i = some v := by
  obtain ⟨-, hbuild, -, -, hiv⟩ := h
  rw [decrypted_data, hbuild, hiv]
  exact mapPayload_restores_of_lookup_eq (encryptPayload_length _ _) (decryptPayload_encryptPayload _ _) hlen hdata hi
    hv

/-- MKHDR and then ENC, in crypto mode in a session (46_session.md R158). -/
theorem execAll_mkhdr_enc {s : State} (hm : s.build.cryptoMode = .crypto) (h : s.status.init = true) :
    execAll [.mkhdr, .enc] s = .next (encrypted (succeed { s with hdr := createHeader s.sendIv s.len })) := by
  have henc : exec .enc (succeed { s with hdr := createHeader s.sendIv s.len }) = .next _ := exec_enc_of_init hm h
  simp only [execAll, exec_mkhdr_of_init hm h, henc]

/-! ### INIT and the handshake -/

theorem exec_init_of_le {s : State} (h : 15 ≤ s.len.toNat) : exec .init s = .next (succeed (startSession s)) :=
  exec_of_success ((commandError_init s).mpr h)

theorem exec_init_of_lt {s : State} (h : s.len.toNat < 15) : exec .init s = .next (raise .shortHs s) :=
  exec_of_error (if_pos ⟨rfl, h⟩)

/-- The IVs INIT loads: the second read follows the first only in its draws (46_session.md R153). -/
theorem startSession_ivs (s : State) :
    (startSession s).sendIv = Quad.ofBytes (readData 7 4 s).1 ∧
      (startSession s).recvIv = Quad.ofBytes (readData 11 4 (readData 7 4 s).2).1 :=
  ⟨rfl, rfl⟩

/-- Four bytes are the bytes of the register made of them. -/
theorem eq_bytes_ofBytes {bs : List Byte} (h : bs.length = 4) :
    bs = [(Quad.ofBytes bs).b0, (Quad.ofBytes bs).b1, (Quad.ofBytes bs).b2, (Quad.ofBytes bs).b3] := by
  match bs, h with
  | [_, _, _, _], _ => rfl

/-- DATA holds every part of what it holds. -/
theorem holds_part {s : State} {a : Nat} {bs : List Byte} (h : s.holds a bs) (k n : Nat) :
    s.holds (a + k) ((bs.drop k).take n) := by
  intro i hi
  rw [List.length_take, List.length_drop] at hi
  rw [Nat.add_assoc, h (k + i) (by omega), List.getElem_take, List.getElem_drop]

end Sys2Proof.Machine
end

section
/-! The obligations about sessions (46_session.md). -/

namespace Sys2Proof.Machine

/-- Settles O48: the receiver's one pass over the payload undoes the sender's, and both shuffle one IV. -/
theorem decryptAfterEncryptIsIdentity : Obligations.DecryptAfterEncryptIsIdentity := by
  intro a b hcrypto hbuild ha hb hiv
  have hpair : Paired a b := ⟨hcrypto, hbuild, ha, hb, hiv⟩
  obtain ⟨-, -, ha', hb', hiv'⟩ := paired_next_frame hpair
  refine ⟨_, exec_enc_of_init hcrypto ha, rfl, ha', fun hlen hdata => ?_⟩
  exact ⟨_, exec_dec_of_paired hpair, hiv', rfl, hb', fun i v => decrypted_lookup_of_paired hpair hlen hdata⟩

/-- Settles O49: CHKLEN reads LEN out of the sender's header, and with that LEN DEC undoes ENC. -/
theorem wireFrameRoundTrip : Obligations.WireFrameRoundTrip := by
  intro a b hcrypto hbuild ha hb hiv
  refine ⟨_, execAll_mkhdr_enc hcrypto ha, rfl, fun hhdr => ⟨_, exec_chklen b, ?_⟩⟩
  have hlen : checkLength b.hdr = a.len := (congrArg checkLength hhdr).trans (checkLength_createHeader a.sendIv a.len)
  refine ⟨hlen, fun d hdata => ?_⟩
  have hpair : Paired (succeed { a with hdr := createHeader a.sendIv a.len })
      { succeed { b with len := checkLength b.hdr } with data := d } := ⟨hcrypto, hbuild, ha, hb, hiv⟩
  obtain ⟨-, -, -, -, hiv'⟩ := paired_next_frame hpair
  exact ⟨_, exec_dec_of_paired hpair, hiv', fun i v => decrypted_lookup_of_paired hpair hlen hdata⟩

/-- Settles O20: with at least 15 bytes INIT reads both IVs, with fewer it raises E_SHORT_HS. -/
theorem initLoadsBothIvs : Obligations.InitLoadsBothIvs := by
  refine ⟨rfl, fun s h => ?_, fun s h => exec_init_of_lt h, fun s hlen hm hseen hholds => ?_⟩
  · exact ⟨_, _, _, exec_init_of_le h, readData_length 7 4 s, readData_mayRead 7 4 s,
      eq_bytes_ofBytes (readData_length 7 4 s), readData_length 11 4 (readData 7 4 s).2,
      readData_mayRead 11 4 (readData 7 4 s).2, eq_bytes_ofBytes (readData_length 11 4 (readData 7 4 s).2),
      rfl, rfl, rfl, rfl, rfl, rfl, rfl⟩
  · have hsend : (readData 7 4 s).1 = [0x01, 0x02, 0x03, 0x04] :=
      readData_eq_of_holds 7 [0x01, 0x02, 0x03, 0x04] s (holds_part hholds 7 4)
    have hrecv : (readData 11 4 (readData 7 4 s).2).1 = [0x46, 0x72, 0x7A, 0x52] :=
      readData_eq_of_holds 11 [0x46, 0x72, 0x7A, 0x52] (readData 7 4 s).2 (holds_part hholds 11 4)
    obtain ⟨hsendIv, hrecvIv⟩ := startSession_ivs s
    refine ⟨_, exec_init_of_le (by rw [hlen]; decide), ?_, ?_, ?_⟩
    · rw [succeed_sendIv, hsendIv, hsend]
      rfl
    · rw [succeed_recvIv, hrecvIv, hrecv]
      rfl
    · obtain ⟨hbuild, -, -, -, -, -, hstatus⟩ := startSession_frame s
      simp [State.statusByte, State.cryptoBit, hbuild, hstatus, hm, hseen]

/-- Settles O45: in a session ENC maps the payload it reads through both stages. -/
theorem encEncryptsPayload : Obligations.EncEncryptsPayload := by
  refine ⟨rfl, fun s hm h => ?_, fun s hm => exec_of_null (.inl rfl) hm,
    fun s hm h => exec_of_not_init (i := .enc) nofun (by rw [hm]; rfl) h, by decide,
    aesOfb_default_enc_example, shuffle_default⟩
  exact ⟨_, s.payload, exec_enc_of_init hm h, payload_length s, payload_mayRead s, encrypted_holds s,
    encrypted_sameDataFrom s, rfl, ⟨rfl, rfl, rfl, rfl, rfl, rfl, rfl⟩, rfl⟩

/-- Settles O46: in a session DEC maps the payload it reads through both stages; its example undoes that of ENC. -/
theorem decDecryptsPayload : Obligations.DecDecryptsPayload := by
  refine ⟨rfl, fun s hm h => ?_, fun s hm => exec_of_null (.inr rfl) hm,
    fun s hm h => exec_of_not_init (i := .dec) nofun (by rw [hm]; rfl) h, ?_, shuffle_default⟩
  · exact ⟨_, s.payload, exec_dec_of_init hm h, payload_length s, payload_mayRead s, decrypted_holds s,
      decrypted_sameDataFrom s, rfl, ⟨rfl, rfl, rfl, rfl, rfl, rfl, rfl⟩, rfl⟩
  · rw [← aesOfb_default_enc_example, aesOfb_aesOfb]
    decide

/-- Settles O47: MENC and OFB.S are the two stages of ENC, and the success of MENC is overwritten by that of OFB.S. -/
theorem encIsMencThenOfb : Obligations.EncIsMencThenOfb := by
  intro s hm h
  have hofb : exec .ofbS (succeed (mapPayload mapleEncrypt s)) = .next _ := exec_ofbS_of_init h
  simp only [execAll, exec_menc, hofb, exec_enc_stages hm h, succeed_ofbPayload_succeed]

end Sys2Proof.Machine
end

section
/-! SUPPORT. The errors of the commands (60_exceptions.md R168, R174), said once: which commands raise which error, that
an error on STATUS determines the whole state after it, and that every event answers a next state. -/

namespace Sys2Proof.Machine

/-! ### Which commands raise which error -/

/-- The list of 60_exceptions.md R168. -/
theorem needsSession_iff (i : Instr) (mode : CryptoMode) :
    needsSession i mode = true ↔
      i ∈ [Instr.shufS, .shufR, .ofbS, .ofbR] ∨ (i ∈ [Instr.enc, .dec, .mkhdr] ∧ mode = .crypto) := by
  cases i <;> simp [needsSession]

theorem ne_init_of_needsSession {i : Instr} {mode : CryptoMode} (h : needsSession i mode = true) : i ≠ .init := by
  rintro rfl
  cases h

/-- E_NOT_INIT (60_exceptions.md R168). -/
theorem commandError_of_notInit {i : Instr} {s : State} (h : commandError i s = some .notInit) :
    needsSession i s.build.cryptoMode = true ∧ s.status.init = false := by
  unfold commandError at h
  split at h
  · cases h
  · split at h
    · assumption
    · cases h

/-- The four commands of 60_exceptions.md R174: none needs a session, and none is INIT. -/
theorem commandError_of_total {i : Instr} (hi : i ∈ [Instr.aesblk, .menc, .mdec, .chklen]) (s : State) :
    commandError i s = none := by
  cases i with
  | aesblk | menc | mdec | chklen => simp [commandError, needsSession]
  | _ => simp at hi

theorem ErrorName.eq_notInit_of_code {e : ErrorName} (h : e.code = 2) : e = .notInit := by
  cases e with
  | notInit => rfl
  | illegal | shortHs => simp at h

/-! ### STATUS after an error -/

/-- A byte written to CMD that leaves an error code raised that error and did nothing else (60_exceptions.md R171). -/
theorem runCommand_of_err_ne_zero {op : Byte} {s t : State} (h : runCommand op s = .next t) (he : t.status.err ≠ 0) :
    ∃ e, t = raise e s := by
  obtain hraise | ⟨i, rfl⟩ := runCommand_ends h
  · exact hraise
  · exact absurd rfl he

/-! ### Every event answers a next state -/

/-- By the event to come: none, a read, a byte written to CMD, a write to another address, or the reset input. -/
theorem step_answers (s : State) : s.goesOn := by
  cases hp : s.pending with
  | nil => exact ⟨s, by simp only [step, takeEvent, hp]⟩
  | cons e rest =>
    cases e with
    | reset => exact ⟨applyReset { s with pending := rest }, by simp only [step, takeEvent, hp, hostEvent]⟩
    | access x =>
      cases x with
      | read a => exact ⟨_, step_read hp⟩
      | write a v =>
        by_cases ha : a = 0
        · obtain ⟨t, ht⟩ := runCommand_answers v { s with pending := rest }
          exact ⟨t, (step_write_cmd (ha ▸ hp)).trans ht⟩
        · exact ⟨_, step_write hp ha⟩

end Sys2Proof.Machine
end

section
/-! The obligations about the errors (60_exceptions.md). -/

namespace Sys2Proof.Machine

/-- Settles O16: the commands of R168 are those that need a session, and no other error has the code 2. -/
theorem ivCommandsNeedSession : Obligations.IvCommandsNeedSession := by
  refine ⟨fun i s hinit hi => ?_, fun i s t h herr => ?_⟩
  · have hn := (needsSession_iff i s.build.cryptoMode).mpr hi
    exact exec_of_not_init (ne_init_of_needsSession hn) hn hinit
  · obtain ⟨e, he, rfl⟩ | ⟨-, rfl⟩ := exec_cases h
    · rw [ErrorName.eq_notInit_of_code herr] at he
      obtain ⟨hn, hinit⟩ := commandError_of_notInit he
      exact ⟨hinit, (needsSession_iff i s.build.cryptoMode).mp hn⟩
    · cases herr

/-- Settles O17: an error code comes from `raise`, which touches STATUS.ERR and STATUS.ERRSEEN alone; only a reset
clears ERRSEEN. -/
theorem errorsArePrecise : Obligations.ErrorsArePrecise := by
  refine ⟨fun op s t h herr => ?_, fun s t h hreset hseen => ?_⟩
  · obtain ⟨e, rfl⟩ := runCommand_of_err_ne_zero h herr
    rfl
  · obtain ⟨-, hsticky⟩ := errSeenIsSticky
    by_contra hclear
    exact hreset (hsticky s t h hseen (Bool.eq_false_of_not_eq_true hclear))

/-- Settles O19: the four commands have no error to raise, and INIT ends by whether LEN is at least 15. -/
theorem totalCommandsNeverFail : Obligations.TotalCommandsNeverFail := by
  refine ⟨fun i s hi => ?_, fun s t h => ?_⟩
  · exact ⟨_, exec_of_success (commandError_of_total hi s), rfl⟩
  · by_cases hlen : 15 ≤ s.len.toNat
    · cases (exec_init_of_le hlen).symm.trans h
      exact .inl rfl
    · cases (exec_init_of_lt (Nat.lt_of_not_le hlen)).symm.trans h
      exact .inr rfl

/-- Settles O52: a step answers whatever the event, and every command ends in an error or a success. -/
theorem machineNeverStops : Obligations.MachineNeverStops := by
  exact ⟨step_answers, fun i s => ⟨_, exec_eq_commandResult i s⟩⟩

end Sys2Proof.Machine
end

section
/-! SUPPORT. Reset (70_reset_and_hazards.md R191, R192), said once: the step of the reset input, where a block after
reset has no byte for the host, what its STATUS reads, and that no command clears STATUS.INIT. -/

namespace Sys2Proof.Machine

/-- The step whose event is the reset input. -/
theorem step_reset {s : State} {rest : List HostEvent} (h : s.pending = .reset :: rest) :
    step s = .next (applyReset { s with pending := rest }) := by
  simp only [step, takeEvent, h, hostEvent]

/-- The addresses of the two IVs and of DATA, by what they name (20_memory.md R48). -/
theorem locate_iv_or_data {a : Addr} (ha : (8 ≤ a.toNat ∧ a.toNat ≤ 15) ∨ 0x10000 ≤ a.toNat) :
    (∃ i, locate a = .sendIv i) ∨ (∃ i, locate a = .recvIv i) ∨ ∃ i, locate a = .data i := by
  have haddr : (locate a).address = some a.toNat := by
    rw [address_locate, if_neg (by omega)]
  cases hl : locate a with
  | sendIv i => exact .inl ⟨i, rfl⟩
  | recvIv i => exact .inr (.inl ⟨i, rfl⟩)
  | data i => exact .inr (.inr ⟨i, rfl⟩)
  | reserved => simp [hl, PortLoc.address] at haddr
  | cmd | status | lenLo | lenHi | hdr =>
    simp only [hl, PortLoc.address, Option.some.injEq] at haddr
    omega

/-- Without a session and with no DATA byte written, the host finds no byte at the IVs and in DATA
(10_state.md R20, R30). -/
theorem hostByte_eq_none {s : State} (hinit : s.status.init = false) (hdata : s.data = []) {a : Addr}
    (ha : (8 ≤ a.toNat ∧ a.toNat ≤ 15) ∨ 0x10000 ≤ a.toNat) : s.hostByte a = none := by
  rw [hostByte_eq_byteAt]
  obtain ⟨i, hl⟩ | ⟨i, hl⟩ | ⟨i, hl⟩ := locate_iv_or_data ha
  · simp [hl, State.byteAt, hinit]
  · simp [hl, State.byteAt, hinit]
  · simp [hl, State.byteAt, hdata]

/-- With INIT, ERRSEEN and ERR all 0, STATUS shows the mode alone (10_state.md R25). -/
theorem statusByte_of_reset {s : State} (h : s.status = ⟨false, false, 0⟩) :
    s.statusByte = if s.build.cryptoMode = .crypto then 0x02 else 0x00 := by
  rw [State.statusByte, State.cryptoBit, h]
  cases s.build.cryptoMode <;> rfl

/-- A byte written to CMD never clears STATUS.INIT (10_state.md R24). -/
theorem runCommand_keeps_init {op : Byte} {s t : State} (h : runCommand op s = .next t) (hs : s.status.init = true) :
    t.status.init = true := by
  obtain ⟨i, -, hi⟩ | rfl := runCommand_cases h
  · simp [exec_init_bit hi, hs]
  · exact hs

end Sys2Proof.Machine
end

section
/-! The obligations about reset (70_reset_and_hazards.md). -/

namespace Sys2Proof.Machine

/-- Settles O14: both resets leave no session and no DATA, so the host finds no byte there; every other step keeps
STATUS or runs a byte written to CMD, which clears neither bit. -/
theorem resetInputClears : Obligations.ResetInputClears := by
  refine ⟨fun b => ?_, fun s rest hp => ?_, fun s t h hreset => ?_⟩
  · exact ⟨rfl, rfl, rfl, rfl, fun a ha => hostByte_eq_none rfl rfl ha⟩
  · exact ⟨_, step_reset hp, rfl, rfl, rfl, fun a ha => hostByte_eq_none rfl rfl ha, rfl, rfl⟩
  · obtain hst | ⟨op, rest, -, hrun⟩ | hhead := step_status_cases h
    · rw [hst]
      exact ⟨id, id⟩
    · have hinit := runCommand_keeps_init hrun
      exact ⟨hinit, fun hseen => by simp [runCommand_errSeen hrun, hseen]⟩
    · exact absurd hhead hreset

/-- Settles O15: the read finds STATUS as the reset left it. -/
theorem statusReadAfterReset : Obligations.StatusReadAfterReset := by
  intro s rest hp
  refine ⟨_, _, step_reset hp, hostReadReturnsMappedByte _ _ rest _ rfl rfl, ?_⟩
  rw [statusByte_of_reset rfl]
  rfl

/-- Settles O51: with DATA empty and ERR 0, in every build. -/
theorem resetMeetsInvariant : Obligations.ResetMeetsInvariant := by
  have hinv (b : Build) : (State.resetOf b).inv = true :=
    (inv_iff _).mpr ⟨Memory.wf_nil, Nat.zero_le 3, .inl rfl⟩
  exact ⟨hinv, hinv defaultBuild⟩

end Sys2Proof.Machine
end
